-- ==== Sys2Proof/Word.lean ====
section
/-! DEFINITION. The widths the spec gives its values (00_scope.md R10, R11). -/

namespace Sys2Proof

/-- A byte, 8 bits (R11). A character is a byte used as an ASCII code. -/
abbrev Byte := BitVec 8

/-- A sextet, 6 bits (R11). -/
abbrev Sextet := BitVec 6

/-- A bus word, 32 bits: the data bus width is not a parameter (R8). -/
abbrev Word := BitVec 32

/-- A message length, 24 bits (10_state.md R33, R34). -/
abbrev Len := BitVec 24

/-- A block-relative byte offset. The port is `AW = W + 2` bits wide and `W <= 22` (R8), so 24 bits
hold every offset of every configuration. -/
abbrev Addr := BitVec 24

end Sys2Proof
end

