-- ==== Sys2Proof/Config.lean ====
section
/-! DEFINITION. The implementation parameters of 00_scope.md R8 and the values the spec leaves open. -/

namespace Sys2Proof

/-- The free parameters of R8. `OUT_CAP` and `AW` are derived from them; `LAT` is the schedule's (log 3). -/
structure Params where
  /-- `IN_CAP`: bytes in the input buffer. -/
  inCap : Nat
  /-- `W`: address bits of one window. -/
  w : Nat
  /-- `BASE`: where the platform places the block in its own address space. The block neither sees nor depends on it
  (20_memory.md R61). -/
  base : Nat
  deriving DecidableEq, Repr

/-- The reference values of R8: `IN_CAP = 3072`, `W = 12`. R8 leaves `BASE` open: 0 here (log 19). -/
def Params.reference : Params := { inCap := 3072, w := 12, base := 0 }

/-- `InBuf[i]` while nothing has written it since power-up: unspecified, a free value (10_state.md R22,
93_implementation_defined.md item 3; log 4). -/
opaque Config.inBufPowerUp : Nat → Byte

/-- `OutStore[i]` while it is unspecified: a free value for each time the store became unspecified
(10_state.md R23, 93_implementation_defined.md item 4; log 5). -/
opaque Config.outStoreFree : Nat → Nat → Byte

/-- `bus_rdata` in the cycle after the n-th write taken without a bus error: no rule states it, a free
value (20_memory.md R62 speaks of a read's data only; log 6). -/
opaque Config.writeRdata : Nat → Word

end Sys2Proof
end

