-- ==== Sys2Proof/Machine/Operands.lean ====
section
/-! DEFINITION. Operand forms: how an offset is split and checked, the lanes of a buffer word, the fields of
the written words (20_memory.md R63-R67, 30_encoding.md R90, R96). -/

namespace Sys2Proof.Machine

/-- `OUT_CAP = 4 * ceil(IN_CAP / 3)` (R8). -/
def outCap (p : Params) : Nat := 4 * ((p.inCap + 2) / 3)

/-- `AW = W + 2` (R8). -/
abbrev addrBits (p : Params) : Nat := p.w + 2

/-- The constraints R8 puts on the parameters; `BASE` is aligned to `2^AW`. -/
def validParams (p : Params) : Bool :=
  p.inCap % 4 == 0 && decide (4 ≤ p.inCap) && decide (outCap p ≤ 2 ^ p.w)
    && decide (5 ≤ p.w) && decide (p.w ≤ 22) && p.base % 2 ^ addrBits p == 0

/-- What the `AW`-bit port `bus_addr` carries of a 24-bit offset (R60; log 14). -/
def portAddr (p : Params) (a : Addr) : Addr := BitVec.ofNat 24 (a.toNat % 2 ^ addrBits p)

/-- The window number `bus_addr[AW-1:W]` (R63). -/
def window (p : Params) (a : Addr) : Nat := a.toNat / 2 ^ p.w % 4

/-- The offset in the window, `bus_addr[W-1:0]` (R63). -/
def offset (p : Params) (a : Addr) : Nat := a.toNat % 2 ^ p.w

/-- The offset of window 1 at offset `off` (R63, R100). -/
def inWindow (p : Params) (off : Addr) : Addr := BitVec.ofNat 24 (2 ^ p.w + off.toNat % 2 ^ p.w)

/-- The mapped offsets of window 0 (10_state.md R26). -/
def registerOffset (off : Nat) : Bool :=
  off == 0x000 || off == 0x004 || off == 0x008 || off == 0x00C || off == 0x010 || off == 0x014

/-- R67: the five conditions under which a transaction raises `BusError`. -/
def busError (p : Params) (a : Addr) : Bool :=
  a.toNat % 4 != 0
    || window p a == 3
    || (window p a == 0 && !registerOffset (offset p a))
    || (window p a == 1 && decide (p.inCap ≤ offset p a))
    || (window p a == 2 && decide (outCap p ≤ offset p a))

/-- The rows that refine `BUS_WRITE` take this offset: `CTRL`, `IN_LEN`, `IRQ_EN`, or an aligned offset of
window 1 (opcode_table.json; log 8). -/
def refinedWrite (p : Params) (a : Addr) : Bool :=
  a == 0x004#24 || a == 0x00C#24 || a == 0x014#24 ||
    (window p a == 1 && a.toNat % 4 == 0)

/-- Byte lane `j` of a bus word: bits `[8j+7 : 8j]` (R65). -/
def laneByte (v : Word) (j : Nat) : Byte := v.extractLsb' (8 * j) 8

/-- The bus word of four buffer bytes, `b0` at the lowest offset (R65, little-endian). -/
def wordOfBytes (b0 b1 b2 b3 : Byte) : Word := b3 ++ b2 ++ b1 ++ b0

/-- `CTRL.OP = v[1:0]` (R90). -/
def ctrlOp (v : Word) : BitVec 2 := v.extractLsb' 0 2

/-- `CTRL.CLR = v[8]` (R90). -/
def ctrlClr (v : Word) : Bool := v.getLsbD 8

/-- `IN_LEN.LEN = v[23:0]` (43_host_commands.md R206). -/
def lenField (v : Word) : Len := v.extractLsb' 0 24

/-- `IRQ_EN.IE = v[0]` (43_host_commands.md R207). -/
def ieField (v : Word) : Bool := v.getLsbD 0

/-- `zext_32` of a length (43_host_commands.md R200). -/
def lenWord (n : Len) : Word := n.setWidth 32

/-- `zext_32` of one bit (43_host_commands.md R200). -/
def bitWord (b : Bool) : Word := (BitVec.ofBool b).setWidth 32

end Sys2Proof.Machine
end

