-- ==== Sys2Proof/Syntax.lean ====
section
/-! DEFINITION. One constructor for each row of spec/opcode_table.json. -/

namespace Sys2Proof

/-- The rows of the opcode table. The first six are host transactions (format `BUS`, 30_encoding.md R98);
the last five are command words, the data of a write to `CTRL` (format `CTRL`, R90). Bits the block
ignores (a read's data, reserved bits: R92, R98) are no operands. -/
inductive Instr where
  /-- `BUS_READ`: read the word at `addr` (43_host_commands.md R200). -/
  | busRead (addr : Addr)
  /-- `BUS_WRITE`: write `v` at `addr` (R201). The four rows below refine it by address. -/
  | busWrite (addr : Addr) (v : Word)
  /-- `CTRL_WRITE`: write the command word `v` to `CTRL` (R208). -/
  | ctrlWrite (v : Word)
  /-- `IN_LEN_WRITE` (R206). -/
  | inLenWrite (v : Word)
  /-- `IRQ_EN_WRITE` (R207). -/
  | irqEnWrite (v : Word)
  /-- `INBUF_WRITE`: write `v` at offset `off` of window 1 (R204). -/
  | inbufWrite (off : Addr) (v : Word)
  /-- `CMD_NONE`: command word with `OP = 0`, `CLR = 0` (R210). -/
  | cmdNone
  /-- `CMD_ENCODE`: command word with `OP = 1`, `CLR = 0` (R211). -/
  | cmdEncode
  /-- `CMD_DECODE`: command word with `OP = 2`, `CLR = 0` (R211). -/
  | cmdDecode
  /-- `CMD_RSVD`: command word with `OP = 3`, `CLR = 0` (R214). -/
  | cmdRsvd
  /-- `CLR`: command word with `CLR = 1` and any `OP`, which acts on the cleared status (R209; log 7). -/
  | clr (op : BitVec 2)
  deriving DecidableEq, Repr

end Sys2Proof
end

