-- ==== Sys2Proof/WellFormed.lean ====
section
/-! DEFINITION. Which terms of Instr are the instruction of some encoding, in a configuration. -/

namespace Sys2Proof

/-- The offset fits the `AW`-bit port (30_encoding.md R98). -/
def addrFits (p : Params) (a : Addr) : Bool := decide (a.toNat < 2 ^ Machine.addrBits p)

/-- An offset is aligned and inside one window (row INBUF_WRITE: `101aaaaaaaaaa00`). -/
def bufferOffset (p : Params) (off : Addr) : Bool := decide (off.toNat < 2 ^ p.w) && off.toNat % 4 == 0

/-- `i` is what the decoder gives for some transaction or command word. -/
def wellFormed (p : Params) (i : Instr) : Bool :=
  match i with
  | .busRead a => addrFits p a
  | .busWrite a _ => addrFits p a && !Machine.refinedWrite p a
  | .ctrlWrite _ => true
  | .inLenWrite _ => true
  | .irqEnWrite _ => true
  | .inbufWrite off _ => bufferOffset p off
  | .cmdNone => true
  | .cmdEncode => true
  | .cmdDecode => true
  | .cmdRsvd => true
  | .clr _ => true

end Sys2Proof
end

