-- ==== Sys2Proof/Decode.lean ====
section
/-! DEFINITION. The decoder of bus transactions and command words, and the encoder (30_encoding.md R90, R91,
R98; opcode_table.json). -/

namespace Sys2Proof

/-- Why a bit pattern is no transaction and no command word. -/
inductive DecodeError where
  /-- Neither the width of format `BUS` nor that of format `CTRL`. -/
  | unknownFormat
  /-- A bit is set above the format's last bit. -/
  | bitsAboveFormat
  deriving DecidableEq, Repr

/-- A command word: `CLR = 1` selects row CLR, otherwise `OP` selects the row (R91; log 7). -/
def decodeCtrl (v : Word) : Instr :=
  if Machine.ctrlClr v then .clr (Machine.ctrlOp v)
  else if Machine.ctrlOp v = 0#2 then .cmdNone
  else if Machine.ctrlOp v = 1#2 then .cmdEncode
  else if Machine.ctrlOp v = 2#2 then .cmdDecode
  else .cmdRsvd

/-- A write at offset `a`: the most specific row of the table (R98; log 8). -/
def decodeWrite (p : Params) (a : Addr) (d : Word) : Instr :=
  if a = 0x004#24 then .ctrlWrite d
  else if a = 0x00C#24 then .inLenWrite d
  else if a = 0x014#24 then .irqEnWrite d
  else if Machine.refinedWrite p a then .inbufWrite (BitVec.ofNat 24 (Machine.offset p a)) d
  else .busWrite a d

/-- A transaction `(we, addr, wdata)` as the port carries it (R98). Every transaction has an instruction. -/
def decodeBus (p : Params) (we : Bool) (addr : Addr) (d : Word) : Instr :=
  if we then decodeWrite p (Machine.portAddr p addr) d else .busRead (Machine.portAddr p addr)

/-- Bits of format `BUS`: `{w, a, d}` (R98), 47 in the reference configuration. -/
def busFrameBits (p : Params) : Nat := Machine.addrBits p + 33

/-- `n` bits in whole bytes. -/
def wholeBytes (n : Nat) : Nat := 8 * ((n + 7) / 8)

/-- Field `w` of format `BUS`. -/
def frameWe (p : Params) (w : Nat) : Bool := w.testBit (Machine.addrBits p + 32)

/-- Field `a` of format `BUS`. -/
def frameAddr (p : Params) (w : Nat) : Addr := BitVec.ofNat 24 (w / 2 ^ 32 % 2 ^ Machine.addrBits p)

/-- Field `d` of format `BUS`. -/
def frameData (w : Nat) : Word := BitVec.ofNat 32 w

/-- The decoder on a bit pattern of `nbits` bits, bit 0 least significant: 32 bits are a command word, the
width of format `BUS` (as it is, or in whole bytes) a transaction, and anything else is rejected by name. -/
def decodeFrame (p : Params) (nbits w : Nat) : Except DecodeError Instr :=
  if nbits = 32 then
    if w < 2 ^ 32 then .ok (decodeCtrl (BitVec.ofNat 32 w)) else .error .bitsAboveFormat
  else if nbits = busFrameBits p ∨ nbits = wholeBytes (busFrameBits p) then
    if w < 2 ^ busFrameBits p then .ok (decodeBus p (frameWe p w) (frameAddr p w) (frameData w))
    else .error .bitsAboveFormat
  else .error .unknownFormat

/-- A command word from its fields, reserved bits 0 (R90, R92). -/
def ctrlWord (clr : Bool) (op : BitVec 2) : Nat := clr.toNat * 2 ^ 8 + op.toNat

/-- A write transaction's bits (R98). -/
def writeFrame (p : Params) (a : Nat) (v : Word) : Nat :=
  2 ^ (Machine.addrBits p + 32) + a * 2 ^ 32 + v.toNat

/-- The encoder: the width and the bits of an instruction, ignored bits 0 (R90, R98, R100; log 10). -/
def encode (p : Params) (i : Instr) : Nat × Nat :=
  match i with
  | .busRead a => (busFrameBits p, a.toNat * 2 ^ 32)
  | .busWrite a v => (busFrameBits p, writeFrame p a.toNat v)
  | .ctrlWrite v => (busFrameBits p, writeFrame p 0x004 v)
  | .inLenWrite v => (busFrameBits p, writeFrame p 0x00C v)
  | .irqEnWrite v => (busFrameBits p, writeFrame p 0x014 v)
  | .inbufWrite off v => (busFrameBits p, writeFrame p (2 ^ p.w + off.toNat) v)
  | .cmdNone => (32, ctrlWord false 0)
  | .cmdEncode => (32, ctrlWord false 1)
  | .cmdDecode => (32, ctrlWord false 2)
  | .cmdRsvd => (32, ctrlWord false 3)
  | .clr op => (32, ctrlWord true op)

/-- The decoder on a row of spec/opcode_table.json, in the table's numbering of bits and in the table's
configuration, the reference one (`AW = 14`). -/
def decodeTableWord (nbits w : Nat) : Option Instr :=
  match decodeFrame Params.reference nbits w with
  | .ok i => some i
  | .error _ => none

end Sys2Proof
end

