-- ==== Sys2Proof/Machine/Alphabet.lean ====
section
/-! DEFINITION. alphabet_table: the constant ROM and its two read ports (40_alphabet_table.md, 10_state.md R20). -/

namespace Sys2Proof.Machine

/-- The padding character `=` (00_scope.md R11). -/
def pad : Byte := 0x3D

/-- `ALPHA[0..16)`: `A`-`P` (R20). -/
def alphaA : List Byte :=
  [0x41, 0x42, 0x43, 0x44, 0x45, 0x46, 0x47, 0x48, 0x49, 0x4A, 0x4B, 0x4C, 0x4D, 0x4E, 0x4F, 0x50]

/-- `ALPHA[16..32)`: `Q`-`Z`, `a`-`f` (R20). -/
def alphaQ : List Byte :=
  [0x51, 0x52, 0x53, 0x54, 0x55, 0x56, 0x57, 0x58, 0x59, 0x5A, 0x61, 0x62, 0x63, 0x64, 0x65, 0x66]

/-- `ALPHA[32..48)`: `g`-`v` (R20). -/
def alphaG : List Byte :=
  [0x67, 0x68, 0x69, 0x6A, 0x6B, 0x6C, 0x6D, 0x6E, 0x6F, 0x70, 0x71, 0x72, 0x73, 0x74, 0x75, 0x76]

/-- `ALPHA[48..64)`: `w`-`z`, `0`-`9`, `+`, `/` (R20). -/
def alphaW : List Byte :=
  [0x77, 0x78, 0x79, 0x7A, 0x30, 0x31, 0x32, 0x33, 0x34, 0x35, 0x36, 0x37, 0x38, 0x39, 0x2B, 0x2F]

/-- `ALPHA` (R20): constant, written by no port and no reset (R21). -/
def alphaTable : List Byte := alphaA ++ alphaQ ++ alphaG ++ alphaW

/-- Port A, `I2C(i)`: sextet to character (R120). Every sextet has an entry, so the default never shows. -/
def i2c (i : Sextet) : Byte := alphaTable.getD i.toNat 0

/-- The least `k >= n` at which `c` stands in `t`, counting from `n`. -/
def indexFrom (c : Byte) : List Byte → Nat → Option Nat
  | [], _ => none
  | a :: t, n => if a = c then some n else indexFrom c t (n + 1)

/-- Port B, `C2I(c)`: `(valid, idx)`, with `idx = 0` when `c` has no sextet (R121). -/
def c2i (c : Byte) : Bool × Sextet :=
  match indexFrom c alphaTable 0 with
  | some i => (true, BitVec.ofNat 6 i)
  | none => (false, 0)

end Sys2Proof.Machine
end

