-- ==== Sys2Proof/Machine/Encoder.lean ====
section
/-! DEFINITION. base64_encoder: the 24-bit unpacker, the group encoder, the message function (41_encoder.md). -/

namespace Sys2Proof.Machine

/-- Format `G24`: `g = {b0, b1, b2}` (30_encoding.md R94). -/
def groupOfBytes (b0 b1 b2 : Byte) : BitVec 24 := b0 ++ b1 ++ b2

/-- `UNPACK24(g)`: four sextets, the first the most significant (R140). -/
def unpack24 (g : BitVec 24) : Sextet × Sextet × Sextet × Sextet :=
  (g.extractLsb' 18 6, g.extractLsb' 12 6, g.extractLsb' 6 6, g.extractLsb' 0 6)

/-- Character `k` of a group of `n` real bytes: the `n + 1` determined sextets, then `PAD` (R142). -/
def groupChar (n k : Nat) (s : Sextet) : Byte := if k ≤ n then i2c s else pad

/-- `ENC_GROUP(b0, b1, b2, n)` (R142); absent bytes are given as 0 (R143). -/
def encGroup (b0 b1 b2 : Byte) (n : Nat) : List Byte :=
  match unpack24 (groupOfBytes b0 b1 b2) with
  | (s0, s1, s2, s3) => [groupChar n 0 s0, groupChar n 1 s1, groupChar n 2 s2, groupChar n 3 s3]

/-- `EncodeMsg(t)`: group by group, a final partial group with its absent bytes 0 (R147, R143). It never
fails. -/
def encodeMsg : List Byte → List Byte
  | [] => []
  | [b0] => encGroup b0 0 0 1
  | [b0, b1] => encGroup b0 b1 0 2
  | b0 :: b1 :: b2 :: t => encGroup b0 b1 b2 3 ++ encodeMsg t

end Sys2Proof.Machine
end

