-- ==== Sys2Proof/Machine/Decoder.lean ====
section
/-! DEFINITION. base64_decoder: the decode steps in the order of 42_decoder.md, the padding validator, the
packer, the message function. -/

namespace Sys2Proof.Machine

/-- The three kinds of codec error (42_decoder.md R160). -/
inductive ErrKind where
  | inputLength
  | wrongPadding
  | invalidByte
  deriving DecidableEq, Repr

/-- What a codec function returns: `Ok(bytes)` or `Err(kind, b)` (R160). -/
inductive CodecResult where
  | ok (out : List Byte)
  | err (kind : ErrKind) (b : Byte)
  deriving DecidableEq, Repr

/-- Step 1: the number of `PAD` at the end of the message (R161). -/
def trailingLen (t : List Byte) : Nat := (t.reverse.takeWhile (· == pad)).length

/-- Step 1: `core_len` (R161). -/
def coreLen (t : List Byte) : Nat := t.length - trailingLen t

/-- Step 1: `core_text`, the message without its trailing `PAD` (R161). -/
def coreText (t : List Byte) : List Byte := t.take (coreLen t)

/-- Step 2: the remainder of length 1 fails (R162). -/
def badLength (coreLen : Nat) : Bool := coreLen % 4 == 1

/-- Step 3: some full group holds `PAD` (R163). -/
def midPad (core : List Byte) : Bool := (core.take (4 * (core.length / 4))).any (· == pad)

/-- Step 4: too little trailing padding for the final partial group (R164). -/
def shortPad (coreLen trailing : Nat) : Bool :=
  (coreLen % 4 == 2 && decide (trailing < 2)) || (coreLen % 4 == 3 && decide (trailing < 1))

/-- `VALIDATE(core_len, trailing_len, midpad)`: the padding validator unit, Steps 2 to 4 in one (R181). -/
def validate (coreLen trailing : Nat) (midpad : Bool) : Nat :=
  if badLength coreLen then 1 else if midpad then 2 else if shortPad coreLen trailing then 2 else 0

/-- Step 5: the sextets of the characters in index order, or the first character that has none (R165). -/
def translateAll : List Byte → Except Byte (List Sextet)
  | [] => .ok []
  | c :: t =>
    match c2i c with
    | (false, _) => .error c
    | (true, x) =>
      match translateAll t with
      | .error b => .error b
      | .ok s => .ok (x :: s)

/-- `PACK24(s0, s1, s2, s3)`: three bytes, the first the most significant (R176). -/
def pack24 (s0 s1 s2 s3 : Sextet) : Byte × Byte × Byte :=
  let g : BitVec 24 := s0 ++ s1 ++ s2 ++ s3
  (g.extractLsb' 16 8, g.extractLsb' 8 8, g.extractLsb' 0 8)

/-- `DEC_GROUP(s0, s1, s2, s3, m)`: the first `m - 1` bytes (R177, R180). -/
def decGroup (s0 s1 s2 s3 : Sextet) (m : Nat) : List Byte :=
  match pack24 s0 s1 s2 s3 with
  | (b0, b1, b2) => [b0, b1, b2].take (m - 1)

/-- Step 6: full groups, then the final partial group with its absent sextets 0 (R170). A single left-over
sextet yields no byte; Step 2 has excluded it. -/
def packMsg : List Sextet → List Byte
  | [] => []
  | [_] => []
  | [s0, s1] => decGroup s0 s1 0 0 2
  | [s0, s1, s2] => decGroup s0 s1 s2 0 3
  | s0 :: s1 :: s2 :: s3 :: t => decGroup s0 s1 s2 s3 4 ++ packMsg t

/-- `DecodeMsg(t)`: Steps 1 to 6 in order, each over the whole message; the first failing one decides
(R170, R166). -/
def decodeMsg (t : List Byte) : CodecResult :=
  if badLength (coreLen t) then .err .inputLength 0
  else if midPad (coreText t) then .err .wrongPadding 0
  else if shortPad (coreLen t) (trailingLen t) then .err .wrongPadding 0
  else
    match translateAll (coreText t) with
    | .error b => .err .invalidByte b
    | .ok s => .ok (packMsg s)

end Sys2Proof.Machine
end

