-- ==== Sys2Proof/Machine/State.lean ====
section
/-! DEFINITION. The state the spec gives the block (10_state.md, 20_memory.md R60), as plain data, the two
reason types, and the state after reset. -/

namespace Sys2Proof.Machine

/-- A buffer: the bytes written, by address, in canonical form (addresses strictly rising). An address that
is not listed holds NO KNOWN VALUE, so no entry can equal it (10_state.md R22, R23; log 4, log 5). -/
abbrev Memory := List Host.Cell

/-- The operation of a command (10_state.md R36). -/
inductive CodecOp where
  | encode
  | decode
  deriving DecidableEq, Repr

/-- The engine state `ENG` (10_state.md R36). -/
inductive Engine where
  | idle
  | run (op : CodecOp) (len : Len)
  deriving DecidableEq, Repr

/-- The stored fields of `STATUS` (10_state.md R31). `BUSY` is `ENG` (R36; log 11); reserved bits have no
storage and read 0. -/
structure Status where
  done : Bool
  err : Bool
  code : BitVec 3
  errByte : Byte
  werr : Bool
  deriving DecidableEq, Repr

/-- What the outside presents at one rising edge of `clk` (20_memory.md R60; log 2), and whether the
engine's step falls at this edge if the engine is running (log 3). -/
structure Pins where
  /-- `rst_n`, active low. -/
  rstN : Bool
  /-- `bus_req`. -/
  req : Bool
  /-- `bus_we`. -/
  we : Bool
  /-- `bus_addr`; the port has `AW` of these bits (log 14). -/
  addr : Addr
  /-- `bus_wdata`. -/
  wdata : Word
  /-- The engine completes at this edge, if it was running before it. -/
  engine : Bool
  deriving DecidableEq, Repr

/-- Everything the spec gives the block, the inputs still to come, and the model's own counters for free
values. -/
structure State where
  /-- `IN_CAP` and `W` (00_scope.md R8); no step writes it (log 1). -/
  cfg : Params
  /-- `InBuf` (10_state.md R22). -/
  inBuf : Memory
  /-- `OutStore` (10_state.md R23). -/
  outStore : Memory
  /-- `STATUS` but for `BUSY` (10_state.md R31). -/
  status : Status
  /-- `IN_LEN.LEN` (10_state.md R33). -/
  inLen : Len
  /-- `OUT_LEN.LEN` (10_state.md R34). -/
  outLen : Len
  /-- `IRQ_EN.IE` (10_state.md R35). -/
  ie : Bool
  /-- `ENG` (10_state.md R36). -/
  eng : Engine
  /-- `bus_rdata`, the response to the last edge (20_memory.md R62; log 17). -/
  busRdata : Word
  /-- `bus_err`, the response to the last edge (20_memory.md R62; log 17). -/
  busErr : Bool
  /-- The coming edges, the next one first (log 2). -/
  input : List Pins
  /-- How often `OutStore` became unspecified: picks its free values (log 5). -/
  outDraws : Nat
  /-- How many free `bus_rdata` values were drawn (log 6). -/
  rdataDraws : Nat
  deriving DecidableEq, Repr

/-- Reasons for the machine to stop. THERE IS NONE: "No condition changes the flow of anything. Each
condition ends as a status value, a dropped write or a bus error response" (60_exceptions.md, R252; log 18). -/
inductive Fault where
  deriving DecidableEq, Repr

/-- Reasons to give no meaning. -/
inductive Refusal where
  /-- Raised by an arm of exec whose instruction has no meaning yet (safe). No arm raises it. -/
  | notModelled (mnemonic : String)
  deriving DecidableEq, Repr

/-- `STATUS` after reset (10_state.md R42). -/
def Status.reset : Status := { done := false, err := false, code := 0, errByte := 0, werr := false }

/-- The block right after power-up and reset (10_state.md R42, 70_reset_and_hazards.md R270), in the reference
configuration, with nothing presented yet (log 1, log 12). -/
def State.reset : State where
  cfg := Params.reference
  inBuf := []
  outStore := []
  status := Status.reset
  inLen := 0
  outLen := 0
  ie := false
  eng := .idle
  busRdata := 0
  busErr := false
  input := []
  outDraws := 0
  rdataDraws := 0

end Sys2Proof.Machine
end

