-- ==== Sys2Proof/Machine/Flags.lean ====
section
/-! DEFINITION. The STATUS bits, the block's only flags (10_state.md R31, R41): the word a read returns and
what each event sets and clears; and the interrupt line. -/

namespace Sys2Proof.Machine

/-- `STATUS.BUSY`: 1 exactly when `ENG` is `RUN` (10_state.md R36; log 11). -/
def State.busy (s : State) : Bool :=
  match s.eng with
  | .idle => false
  | .run _ _ => true

/-- `irq = STATUS.DONE & IRQ_EN.IE` at all times (10_state.md R37, 60_exceptions.md R250). -/
def State.irq (s : State) : Bool := s.status.done && s.ie

/-- `STATUS_WORD()` (43_host_commands.md R202). -/
def statusWord (busy : Bool) (st : Status) : Word :=
  (0#15 ++ BitVec.ofBool st.werr ++ st.errByte ++ 0#1 ++ st.code ++ 0#1 ++
    BitVec.ofBool st.err ++ BitVec.ofBool st.done ++ BitVec.ofBool busy : BitVec 32)

/-- `STATUS.CODE` of `BAD_CMD` (30_encoding.md R93). -/
def codeBadCmd : BitVec 3 := 4

/-- `STATUS.CODE` of `LEN_OVER` (30_encoding.md R93). -/
def codeLenOver : BitVec 3 := 5

/-- `STATUS.CODE` of a codec error (30_encoding.md R93, 42_decoder.md R160). -/
def codeOf (k : ErrKind) : BitVec 3 :=
  match k with
  | .inputLength => 1
  | .wrongPadding => 2
  | .invalidByte => 3

/-- `CLEAR_STATUS()` (43_host_commands.md R209). -/
def statusCleared (_ : Status) : Status := { done := false, err := false, code := 0, errByte := 0, werr := false }

/-- STATUS at an accepted start: `WERR` is kept (43_host_commands.md R212). -/
def statusStarted (st : Status) : Status := { st with done := false, err := false, code := 0, errByte := 0 }

/-- STATUS at an immediate completion with code `c` (43_host_commands.md R213, R214). -/
def statusRefused (c : BitVec 3) (st : Status) : Status :=
  { st with done := true, err := true, code := c, errByte := 0 }

/-- STATUS at a completion with a result (43_host_commands.md R220). -/
def statusDone (st : Status) : Status := { st with done := true, err := false, code := 0, errByte := 0 }

/-- STATUS at a completion with a codec error (43_host_commands.md R220). -/
def statusFailed (k : ErrKind) (b : Byte) (st : Status) : Status :=
  { st with done := true, err := true, code := codeOf k, errByte := b }

/-- STATUS when a write is dropped because BUSY is 1 (43_host_commands.md R205). -/
def statusDropped (st : Status) : Status := { st with werr := true }

end Sys2Proof.Machine
end

