-- ==== Sys2Proof/Machine/Ops.lean ====
section
/-! DEFINITION. The shared operations: memory, buffers, the bus response, reset. The block has no trap entry
and no trap return (60_exceptions.md R252); `respondError` is its `raise BusError`. -/

namespace Sys2Proof.Machine

/-- The byte listed at address `k`, if any. An unlisted address has no known value. -/
def Memory.read? : Memory → Nat → Option Byte
  | [], _ => none
  | (a, b) :: m, k => if a = k then some b else Memory.read? m k

/-- Write one byte, keeping the addresses strictly rising. -/
def Memory.write : Memory → Nat → Byte → Memory
  | [], k, v => [(k, v)]
  | (a, b) :: m, k, v =>
    if k < a then (k, v) :: (a, b) :: m
    else if k = a then (k, v) :: m
    else (a, b) :: Memory.write m k v

/-- Write bytes at rising addresses from `k`. -/
def Memory.writeAll : Memory → Nat → List Byte → Memory
  | m, _, [] => m
  | m, k, b :: t => Memory.writeAll (Memory.write m k b) (k + 1) t

/-- Every address of `m` is above `k`, and they rise strictly. -/
def Memory.risingFrom : Nat → Memory → Bool
  | _, [] => true
  | k, (a, _) :: m => decide (k ≤ a) && Memory.risingFrom (a + 1) m

/-- The canonical form: addresses strictly rising. (No entry can equal what an unlisted address reads as,
since that is no known value.) -/
def Memory.wf (m : Memory) : Bool := Memory.risingFrom 0 m

/-- Every listed address is below `n`. -/
def Memory.below (n : Nat) (m : Memory) : Bool := m.all fun c => decide (c.1 < n)

/-- `InBuf[i]` (10_state.md R22; log 4). -/
def inBufByte (s : State) (i : Nat) : Byte := (s.inBuf.read? i).getD (Config.inBufPowerUp i)

/-- `OutStore[i]` (10_state.md R23; log 5). -/
def outStoreByte (s : State) (i : Nat) : Byte := (s.outStore.read? i).getD (Config.outStoreFree s.outDraws i)

/-- `OutView(i)`, the masked view (10_state.md R24). -/
def outView (s : State) (i : Nat) : Byte :=
  if s.busy = false ∧ i < s.outLen.toNat then outStoreByte s i else 0

/-- `InBuf[0..n)`. -/
def message (s : State) (n : Nat) : List Byte := (List.range n).map (inBufByte s)

/-- The response to a read taken without a bus error (20_memory.md R62). -/
def respondRead (v : Word) (s : State) : State := { s with busRdata := v, busErr := false }

/-- The response to a write taken without a bus error: `bus_err = 0`, and a free `bus_rdata` (R62; log 6). -/
def respondWrite (s : State) : State :=
  { s with busRdata := Config.writeRdata s.rdataDraws, busErr := false, rdataDraws := s.rdataDraws + 1 }

/-- `raise BusError`: no state changes, `bus_rdata = 0`, `bus_err = 1` (20_memory.md R67). -/
def respondError (s : State) : State := { s with busRdata := 0, busErr := true }

/-- The outputs after an edge that took no transaction: 0 (20_memory.md R62). -/
def respondNothing (s : State) : State := { s with busRdata := 0, busErr := false }

/-- A rising edge with `rst_n = 0` (70_reset_and_hazards.md R270, 10_state.md R42): `InBuf` keeps its bytes,
`OutStore` becomes unspecified, the response is 0. -/
def resetEdge (s : State) : State :=
  { s with
    outStore := [], outDraws := s.outDraws + 1, status := Status.reset, inLen := 0, outLen := 0, ie := false,
    eng := .idle, busRdata := 0, busErr := false }

/-- A write while BUSY is dropped (43_host_commands.md R205). -/
def dropWrite (s : State) : State := { s with status := statusDropped s.status }

/-- A write to `CTRL`, `IN_LEN` or window 1: dropped while BUSY, otherwise its effect `f` (R205). -/
def unlessBusy (f : State → State) (s : State) : State := if s.busy then dropWrite s else f s

end Sys2Proof.Machine
end

