-- ==== Sys2Proof/Machine/Engine.lean ====
section
/-! DEFINITION. The engine's only step, completion (43_host_commands.md R220). -/

namespace Sys2Proof.Machine

/-- The function of a command (R220): ENCODE never fails (41_encoder.md R147). -/
def codec (op : CodecOp) (t : List Byte) : CodecResult :=
  match op with
  | .encode => .ok (encodeMsg t)
  | .decode => decodeMsg t

/-- A completion with a result (R220; 41_encoder.md R150, 42_decoder.md R178). -/
def completeOk (out : List Byte) (s : State) : State :=
  { s with
    outStore := s.outStore.writeAll 0 out, outLen := BitVec.ofNat 24 out.length, status := statusDone s.status,
    eng := .idle }

/-- A completion with a codec error (R220; 42_decoder.md R169): `OutStore` takes any values. -/
def completeErr (k : ErrKind) (b : Byte) (s : State) : State :=
  { s with
    outStore := [], outDraws := s.outDraws + 1, outLen := 0, status := statusFailed k b s.status, eng := .idle }

/-- `COMPLETE()` on the running command `(op, len)` (R220). -/
def completeRun (op : CodecOp) (len : Len) (s : State) : State :=
  match codec op (message s len.toNat) with
  | .ok out => completeOk out s
  | .err k b => completeErr k b s

/-- The engine's step: enabled only when `ENG` is `RUN` (R220). -/
def complete (s : State) : State :=
  match s.eng with
  | .idle => s
  | .run op len => completeRun op len s

end Sys2Proof.Machine
end

