-- ==== Sys2Proof/Machine/ClockEdge.lean ====
section
/-! DEFINITION. One rising clock edge around a transaction: what the pins present, what a reset does, when the
engine moves (20_memory.md R62, R73; 70_reset_and_hazards.md R270, R285). -/

namespace Sys2Proof.Machine

/-- The edge taken when the schedule lists no more: nothing is presented and the engine moves (43_host_commands.md
R221; log 3). -/
def quietPins : Pins := { rstN := true, req := false, we := false, addr := 0, wdata := 0, engine := true }

/-- What is presented at the next edge. -/
def nextPins (s : State) : Pins := s.input.headD quietPins

/-- The state with the next edge's inputs taken. -/
def takeInput (s : State) : State := { s with input := s.input.tail }

/-- What an edge asks of the block. -/
inductive EdgeKind where
  /-- `rst_n = 0`. -/
  | reset
  /-- `rst_n = 1`, `bus_req = 0`. -/
  | quiet
  /-- `rst_n = 1`, `bus_req = 1`: the transaction's instruction. -/
  | transaction (i : Instr)
  deriving DecidableEq, Repr

/-- What the next edge asks (R62, R270): a reset beats a transaction presented with it. -/
def nextEdge (s : State) : EdgeKind :=
  if (nextPins s).rstN = false then .reset
  else if (nextPins s).req = false then .quiet
  else .transaction (decodeBus s.cfg (nextPins s).we (nextPins s).addr (nextPins s).wdata)

/-- After the transaction of the edge: the engine completes if its step falls at this edge and it was running
BEFORE the edge, so never at the edge of its own start (R73 point 3, R285). -/
def engineEdge (before after : State) : State :=
  if (nextPins before).engine && before.busy then complete after else after

/-- The pins that present a row's bits (R98); 32 bits are a command word, the data of a CTRL write (R90; log 9). -/
def wordPins (p : Params) (nbits w : Nat) : Pins :=
  if nbits = 32 then
    { rstN := true, req := true, we := true, addr := 0x004, wdata := BitVec.ofNat 32 w, engine := false }
  else
    { rstN := true, req := true, we := frameWe p w, addr := frameAddr p w, wdata := frameData w, engine := false }

/-- `s` with `c` presented at its next edge, before the rest of the schedule. -/
def presentFirst (c : Pins) (s : State) : State := { s with input := c :: s.input }

end Sys2Proof.Machine
end

