-- ==== Sys2Proof/Machine/Commands.lean ====
section
/-! DEFINITION. Command words, the data of a CTRL write (43_host_commands.md R208-R214): the shared operations,
then the meaning of CTRL_WRITE and of each command row. A command row reaches the block as the data of a CTRL
write, so its meaning has that write's bus response (log 9). -/

namespace Sys2Proof.Machine

/-- `CLEAR_STATUS()` (R209). -/
def clearStatus (s : State) : State := { s with status := statusCleared s.status }

/-- `ACCEPT_START(op)` (R212). BUSY is ENG (log 11). -/
def acceptStart (op : CodecOp) (s : State) : State :=
  { s with eng := .run op s.inLen, status := statusStarted s.status, outLen := 0 }

/-- `REFUSE_LEN_OVER()` (R213). -/
def refuseLenOver (s : State) : State := { s with outLen := 0, status := statusRefused codeLenOver s.status }

/-- `REFUSE_BAD_CMD()` (R214). -/
def refuseBadCmd (s : State) : State := { s with outLen := 0, status := statusRefused codeBadCmd s.status }

/-- `START(op)` (R211). -/
def start (op : CodecOp) (s : State) : State :=
  if s.cfg.inCap < s.inLen.toNat then refuseLenOver s else acceptStart op s

/-- What `OP` does, when not BUSY and after `CLR` (R208). -/
def opEffect (op : BitVec 2) (s : State) : State :=
  if op = 0#2 then s
  else if op = 1#2 then start .encode s
  else if op = 2#2 then start .decode s
  else refuseBadCmd s

/-- `CTRL_WRITE(v)` (R208). -/
def ctrlEffect (v : Word) : State → State :=
  unlessBusy fun s => opEffect (ctrlOp v) (if ctrlClr v then clearStatus s else s)

/-- CTRL_WRITE (R208). -/
def execCtrlWrite (v : Word) (s : State) : Host.Outcome State Fault Refusal :=
  .next (respondWrite (ctrlEffect v s))

/-- CMD_NONE (R210): nothing; while BUSY it is dropped like every CTRL write. -/
def execCmdNone (s : State) : Host.Outcome State Fault Refusal :=
  .next (respondWrite (unlessBusy id s))

/-- CMD_ENCODE (R211-R213). -/
def execCmdEncode (s : State) : Host.Outcome State Fault Refusal :=
  .next (respondWrite (unlessBusy (start .encode) s))

/-- CMD_DECODE (R211-R213). -/
def execCmdDecode (s : State) : Host.Outcome State Fault Refusal :=
  .next (respondWrite (unlessBusy (start .decode) s))

/-- CMD_RSVD (R214). -/
def execCmdRsvd (s : State) : Host.Outcome State Fault Refusal :=
  .next (respondWrite (unlessBusy refuseBadCmd s))

/-- CLR (R209): the clear, then `OP` on the cleared status. -/
def execClr (op : BitVec 2) (s : State) : Host.Outcome State Fault Refusal :=
  .next (respondWrite (unlessBusy (fun s => opEffect op (clearStatus s)) s))

end Sys2Proof.Machine
end

