-- ==== Sys2Proof/Machine/BusTransactions.lean ====
section
/-! DEFINITION. The bus transactions (43_host_commands.md R200-R207): BUS_READ, BUS_WRITE and the rows that
refine BUS_WRITE by address. -/

namespace Sys2Proof.Machine

/-- The constant `ID` (10_state.md R32). -/
def idWord : Word := 0x42363401

/-- A read of window 0 at a mapped offset (R200). -/
def readRegister (s : State) (off : Nat) : Word :=
  if off = 0x000 then idWord
  else if off = 0x008 then statusWord s.busy s.status
  else if off = 0x00C then lenWord s.inLen
  else if off = 0x010 then (if s.busy then 0 else lenWord s.outLen)
  else if off = 0x014 then bitWord s.ie
  else 0

/-- The four bytes at `off` of a buffer `B` as one bus word (20_memory.md R65). -/
def bufferWord (B : Nat → Byte) (off : Nat) : Word :=
  wordOfBytes (B off) (B (off + 1)) (B (off + 2)) (B (off + 3))

/-- The word at a mapped offset (R200). -/
def readWord (s : State) (a : Addr) : Word :=
  if window s.cfg a = 0 then readRegister s (offset s.cfg a)
  else if window s.cfg a = 1 then bufferWord (inBufByte s) (offset s.cfg a)
  else bufferWord (outView s) (offset s.cfg a)

/-- `INBUF_WRITE(off, v)` (R204). -/
def inbufEffect (off : Nat) (v : Word) : State → State :=
  unlessBusy fun s =>
    { s with inBuf := s.inBuf.writeAll off [laneByte v 0, laneByte v 1, laneByte v 2, laneByte v 3] }

/-- `IN_LEN_WRITE(v)` (R206). -/
def inLenEffect (v : Word) : State → State := unlessBusy fun s => { s with inLen := lenField v }

/-- `IRQ_EN.IE <- v[0]`, in every state (R207). -/
def irqEnEffect (v : Word) (s : State) : State := { s with ie := ieField v }

/-- A write at a mapped offset (R201): the read-only locations ignore it (20_memory.md R68). -/
def writeEffect (a : Addr) (v : Word) (s : State) : State :=
  if window s.cfg a = 0 then
    if offset s.cfg a = 0x004 then ctrlEffect v s
    else if offset s.cfg a = 0x00C then inLenEffect v s
    else if offset s.cfg a = 0x014 then irqEnEffect v s
    else s
  else if window s.cfg a = 1 then inbufEffect (offset s.cfg a) v s
  else s

/-- BUS_READ (R200). -/
def execBusRead (addr : Addr) (s : State) : Host.Outcome State Fault Refusal :=
  .next (if busError s.cfg addr then respondError s else respondRead (readWord s addr) s)

/-- BUS_WRITE (R201). -/
def execBusWrite (addr : Addr) (v : Word) (s : State) : Host.Outcome State Fault Refusal :=
  .next (if busError s.cfg addr then respondError s else respondWrite (writeEffect addr v s))

/-- IN_LEN_WRITE (R206). -/
def execInLenWrite (v : Word) (s : State) : Host.Outcome State Fault Refusal :=
  .next (respondWrite (inLenEffect v s))

/-- IRQ_EN_WRITE (R207). -/
def execIrqEnWrite (v : Word) (s : State) : Host.Outcome State Fault Refusal :=
  .next (respondWrite (irqEnEffect v s))

/-- INBUF_WRITE (R204), after the bus check of its window-1 offset (20_memory.md R67; log 8). -/
def execInbufWrite (off : Addr) (v : Word) (s : State) : Host.Outcome State Fault Refusal :=
  .next (if busError s.cfg (inWindow s.cfg off) then respondError s
    else respondWrite (inbufEffect (offset s.cfg off) v s))

end Sys2Proof.Machine
end

