-- ==== Sys2Proof/Machine/Dispatch.lean ====
section
/-! DEFINITION. The meaning of each instruction. -/

namespace Sys2Proof.Machine

-- One instruction's effect on the state its transaction meets.
def exec (i : Instr) (s : State) : Host.Outcome State Fault Refusal :=
  match i with
  | .busRead addr => Sys2Proof.Machine.execBusRead addr s
  | .busWrite addr v => Sys2Proof.Machine.execBusWrite addr v s
  | .ctrlWrite v => Sys2Proof.Machine.execCtrlWrite v s
  | .inLenWrite v => Sys2Proof.Machine.execInLenWrite v s
  | .irqEnWrite v => Sys2Proof.Machine.execIrqEnWrite v s
  | .inbufWrite off v => Sys2Proof.Machine.execInbufWrite off v s
  | .cmdNone => Sys2Proof.Machine.execCmdNone s
  | .cmdEncode => Sys2Proof.Machine.execCmdEncode s
  | .cmdDecode => Sys2Proof.Machine.execCmdDecode s
  | .cmdRsvd => Sys2Proof.Machine.execCmdRsvd s
  | .clr op => Sys2Proof.Machine.execClr op s

end Sys2Proof.Machine
end

