-- ==== Sys2Proof/Machine/Step.lean ====
section
/-! DEFINITION. One step of the machine: one rising clock edge (20_memory.md R62, R73; log 2). -/

namespace Sys2Proof.Machine

/-- Take the inputs of the next edge: a reset, nothing, or one transaction, and then the engine's step if it
falls at this edge (R73, R270). -/
def step (s : State) : Host.Outcome State Fault Refusal :=
  match nextEdge s with
  | .reset => .next (resetEdge (takeInput s))
  | .quiet => .next (engineEdge s (respondNothing (takeInput s)))
  | .transaction i =>
    match exec i (takeInput s) with
    | .next t => .next (engineEdge s t)
    | .fault r => .fault r
    | .refused r => .refused r

/-- `s` with the row's bits presented at the next edge (log 13). -/
def State.withFetchWord (s : State) (nbits w : Nat) : State := presentFirst (wordPins s.cfg nbits w) s

end Sys2Proof.Machine
end

