-- ==== Sys2Proof/Safety.lean ====
section
/-! DEFINITION. The terms the claims use: how a transaction was answered, the invariant of the block, and when
two states are the same to the host. -/

namespace Sys2Proof.Machine

/-- `o` is the next state `u` with a read's response: data `v`, `bus_err = 0` (20_memory.md R62). -/
def AnsweredRead (o : Host.Outcome State Fault Refusal) (u : State) (v : Word) : Prop :=
  o = .next { u with busRdata := v, busErr := false }

/-- `o` is the next state `u` with a taken write's response: `bus_err = 0` and a `bus_rdata` that the spec does
not state (log 6), whatever it is. -/
def TakenWrite (o : Host.Outcome State Fault Refusal) (u : State) : Prop :=
  ∃ r n, o = .next { u with busRdata := r, busErr := false, rdataDraws := n }

/-- `o` is the next state of `raise BusError` in `u`: no state changes, `bus_rdata = 0`, `bus_err = 1` (R67). -/
def RaisedBusError (o : Host.Outcome State Fault Refusal) (u : State) : Prop :=
  o = .next { u with busRdata := 0, busErr := true }

/-- The fields of `STATUS` that describe a command (10_state.md R31), `WERR` apart. -/
def Status.describes (st : Status) (done err : Bool) (code : BitVec 3) (b : Byte) : Prop :=
  st.done = done ∧ st.err = err ∧ st.code = code ∧ st.errByte = b

/-- The invariant of the block. Every part is a rule of the spec about all states the block can be in. -/
structure Inv (s : State) : Prop where
  /-- The parameters meet 00_scope.md R8. -/
  cfgValid : validParams s.cfg = true
  /-- `InBuf` is in canonical form. -/
  inBufWf : Memory.wf s.inBuf = true
  /-- `InBuf` has `IN_CAP` bytes (10_state.md R22). -/
  inBufMapped : Memory.below s.cfg.inCap s.inBuf = true
  /-- `OutStore` is in canonical form. -/
  outStoreWf : Memory.wf s.outStore = true
  /-- `OutStore` has `OUT_CAP` bytes (10_state.md R23). -/
  outStoreMapped : Memory.below (outCap s.cfg) s.outStore = true
  /-- While `ENG = RUN(op, len)`, `IN_LEN.LEN = len` (10_state.md R36), and an accepted length fits (R213). -/
  runsInput : ∀ op len, s.eng = .run op len → len = s.inLen ∧ len.toNat ≤ s.cfg.inCap
  /-- `BUSY` and `DONE` are never both 1 (10_state.md R31), and a running command shows no earlier result (R212). -/
  busyClean : s.busy = true → s.status.describes false false 0 0 ∧ s.outLen = 0
  /-- `CODE` values 6 and 7 never occur (30_encoding.md R93). -/
  codeLegal : s.status.code.toNat ≤ 5
  /-- `ERR` is set by a completion whose `CODE != 0` (10_state.md R31). -/
  errIsCode : s.status.err = true ↔ s.status.code ≠ 0
  /-- Every reported condition comes with `DONE` (60_exceptions.md R240 rows 1 to 5). -/
  errIsDone : s.status.err = true → s.status.done = true
  /-- `ERR_BYTE` is the offending byte when `CODE = 3`, else 0 (10_state.md R31). -/
  errByteIsInvalid : s.status.errByte ≠ 0 → s.status.code = 3
  /-- No output on an error (42_decoder.md R169, 60_exceptions.md R240). -/
  errHidesOutput : s.status.err = true → s.outLen = 0
  /-- The result fits the output buffer (42_decoder.md R168, 41_encoder.md R147). -/
  resultFits : s.outLen.toNat ≤ outCap s.cfg
  /-- Every byte of the current result has been written (41_encoder.md R150, 42_decoder.md R178). -/
  resultWritten : ∀ i, i < s.outLen.toNat → (s.outStore.read? i).isSome = true

/-- The two states differ at most in what `OutStore` holds where the masked view shows 0 (10_state.md R23, R24,
R40) and in the address `BASE` that the platform gives the block (20_memory.md R61). -/
structure SameToHost (s t : State) : Prop where
  inCap : s.cfg.inCap = t.cfg.inCap
  w : s.cfg.w = t.cfg.w
  inBuf : s.inBuf = t.inBuf
  status : s.status = t.status
  inLen : s.inLen = t.inLen
  outLen : s.outLen = t.outLen
  ie : s.ie = t.ie
  eng : s.eng = t.eng
  busRdata : s.busRdata = t.busRdata
  busErr : s.busErr = t.busErr
  input : s.input = t.input
  rdataDraws : s.rdataDraws = t.rdataDraws
  view : ∀ i, outView s i = outView t i

/-- The next edge is a reset edge (70_reset_and_hazards.md R270). -/
def atReset (s : State) : Prop := (nextPins s).rstN = false

/-- The next edge presents a write whose port offset is `a`, with data `v`, and no reset (20_memory.md R62). -/
def presentsWrite (s : State) (a : Addr) (v : Word) : Prop :=
  (nextPins s).rstN = true ∧ (nextPins s).req = true ∧ (nextPins s).we = true ∧
    portAddr s.cfg (nextPins s).addr = a ∧ (nextPins s).wdata = v

end Sys2Proof.Machine
end

