-- ==== Sys2Proof/Certificates/Slice0/Obligations.lean ====
section
/-! DEFINITION. The statements for the provers. Each docstring names the rule of the spec it formalises. -/

open Sys2Proof Sys2Proof.Machine

/-! ## Encodings -/

/-- Decoding the encoding of a well-formed instruction gives it back, in every configuration (30_encoding.md R90, R91,
R98). -/
def Obligations.DecodeOfEncodeIsIdentity : Prop :=
  ∀ (p : Params) (i : Instr), validParams p = true → wellFormed p i = true →
    decodeFrame p (encode p i).1 (encode p i).2 = .ok i

/-- Words written out in 95_test_vectors.md section 6 and opcode_table.json decode to their rows. The model's choice:
the most specific row, and row CLR for CLR = 1 (log 7, log 8). -/
def Obligations.SpecWordsDecodeToTheirRows : Prop :=
  decodeTableWord 48 0x000800000000 = some (.busRead 0x008) ∧
  decodeTableWord 48 0x400800000000 = some (.busWrite 0x008 0) ∧
  decodeTableWord 48 0x400400000102 = some (.ctrlWrite 0x102) ∧
  decodeTableWord 48 0x400C00000C01 = some (.inLenWrite 0xC01) ∧
  decodeTableWord 48 0x401400000001 = some (.irqEnWrite 1) ∧
  decodeTableWord 48 0x500479466D59 = some (.inbufWrite 4 0x79466D59) ∧
  decodeTableWord 32 0x00000000 = some .cmdNone ∧
  decodeTableWord 32 0x00000001 = some .cmdEncode ∧
  decodeTableWord 32 0x00000002 = some .cmdDecode ∧
  decodeTableWord 32 0x00000003 = some .cmdRsvd ∧
  decodeTableWord 32 0x00000100 = some (.clr 0)

/-- Every pattern of format BUS (R98, `AW + 33 = W + 35` bits) is one well-formed instruction, and its encoding is the
pattern again, but for the data a read ignores. The model's choice: the most specific row decodes a write, and the
encoder writes ignored bits 0 (log 8, log 10). -/
def Obligations.EveryTransactionHasOneRow : Prop :=
  ∀ (p : Params) (w : Nat), validParams p = true → w < 2 ^ (p.w + 35) →
    ∃ i, decodeFrame p (p.w + 35) w = .ok i ∧ wellFormed p i = true ∧
      ((∃ a, i = .busRead a ∧ a.toNat = w / 2 ^ 32 ∧ w < 2 ^ (p.w + 34)) ∨
        (encode p i = (p.w + 35, w) ∧ 2 ^ (p.w + 34) ≤ w))

/-- Every command word is one row (R91): `OP` selects it, `CLR = 1` is row CLR with that `OP` (the model's choice for
words that two rows match, log 7), and the reserved bits are dropped (R92). -/
def Obligations.EveryCommandWordHasOneRow : Prop :=
  ∀ (p : Params) (v : Word),
    (∃ i, decodeFrame p 32 v.toNat = .ok i ∧ wellFormed p i = true ∧
      encode p i = (32, v.toNat % 4 + 256 * (v.toNat / 256 % 2)) ∧
      (v.toNat / 256 % 2 = 1 → ∃ op : BitVec 2, i = .clr op ∧ op.toNat = v.toNat % 4) ∧
      (v.toNat / 256 % 2 = 0 → v.toNat % 4 = 0 → i = .cmdNone) ∧
      (v.toNat / 256 % 2 = 0 → v.toNat % 4 = 1 → i = .cmdEncode) ∧
      (v.toNat / 256 % 2 = 0 → v.toNat % 4 = 2 → i = .cmdDecode) ∧
      (v.toNat / 256 % 2 = 0 → v.toNat % 4 = 3 → i = .cmdRsvd))

/-! ## The clock edge -/

/-- A transaction presented at an edge without reset is decoded and run; then the engine completes if its step falls
at this edge and it was running before it (20_memory.md R62, R73). The model's choice: a step is one clock edge, and
the schedule says when the engine moves (log 2, log 3). -/
def Obligations.StepRunsThePresentedTransaction : Prop :=
  ∀ (s : State) (c : Pins) (rest : List Pins),
    s.input = c :: rest → c.rstN = true → c.req = true →
    step s =
      match exec (decodeBus s.cfg c.we c.addr c.wdata) { s with input := rest } with
      | .next t => .next (if c.engine = true ∧ s.busy = true then complete t else t)
      | .fault r => .fault r
      | .refused r => .refused r

/-- A command word presented as the data of a CTRL write runs its own row (30_encoding.md R90, 43_host_commands.md
R208); then the engine completes if its step falls at this edge and it was running before it (20_memory.md R73). The
model's choice: a command row's meaning carries the response of its CTRL write, a step is one clock edge, and the
schedule says when the engine moves (log 9, log 2, log 3). -/
def Obligations.StepRunsThePresentedCommand : Prop :=
  ∀ (s : State) (c : Pins) (rest : List Pins),
    s.input = c :: rest → c.rstN = true → c.req = true → c.we = true → portAddr s.cfg c.addr = 0x004 →
    step s =
      match exec (decodeCtrl c.wdata) { s with input := rest } with
      | .next t => .next (if c.engine = true ∧ s.busy = true then complete t else t)
      | .fault r => .fault r
      | .refused r => .refused r

/-- An edge that presents no transaction: the outputs are 0 (20_memory.md R62) and nothing changes but what a
completion due at that edge changes. After the last listed edge the model's schedule has the engine move (log 3). -/
def Obligations.EdgeWithoutTransactionAnswersZero : Prop :=
  ∀ s : State,
    ((nextPins s).rstN = true → (nextPins s).req = false →
      ∃ t, t = { s with input := s.input.tail, busRdata := 0, busErr := false } ∧
        step s = .next (if (nextPins s).engine = true ∧ s.busy = true then complete t else t)) ∧
    (s.input = [] → (nextPins s).rstN = true ∧ (nextPins s).req = false ∧ (nextPins s).engine = true)

/-- A reset edge (70_reset_and_hazards.md R270, R271; 10_state.md R42): the reset values, `InBuf` unchanged, the
transaction of that edge ignored and answered with zeros, a command in flight cancelled; `OutStore` unspecified. -/
def Obligations.ResetEdgeTakesResetValues : Prop :=
  ∀ (s : State) (c : Pins) (rest : List Pins),
    s.input = c :: rest → c.rstN = false →
    ∃ store n, step s = .next
      { s with
        outStore := store, outDraws := n,
        status := { done := false, err := false, code := 0, errByte := 0, werr := false },
        inLen := 0, outLen := 0, ie := false, eng := .idle, busRdata := 0, busErr := false, input := rest }

/-- What the spec states of the block after reset (10_state.md R42): STATUS, IN_LEN, OUT_LEN, IRQ_EN read 0, ENG is
IDLE, `irq` is 0, `ID` reads its constant, the whole output view reads 0, in every configuration. The model's choice:
State.reset's parameters and its empty schedule (log 1, log 12). -/
def Obligations.StateAfterReset : Prop :=
  State.reset.busy = false ∧ State.reset.irq = false ∧ State.reset.eng = .idle ∧
  statusWord State.reset.busy State.reset.status = 0 ∧
  State.reset.inLen = 0 ∧ State.reset.outLen = 0 ∧ State.reset.ie = false ∧
  AnsweredRead (exec (.busRead 0x000) State.reset) State.reset 0x42363401 ∧
  ∀ i, outView State.reset i = 0

/-- No condition stops the block: every instruction and every edge has a next state (60_exceptions.md R252). The
model's choice: Fault has no constructor (log 18). -/
def Obligations.EveryEdgeAnswersNext : Prop :=
  (∀ (i : Instr) (s : State), ∃ t, exec i s = .next t) ∧ ∀ s : State, ∃ t, step s = .next t

/-! ## Reads -/

/-- BUS_READ whole (43_host_commands.md R200): a bus error, or the word of the target, and no other change. -/
def Obligations.BusReadReturnsTheTarget : Prop :=
  ∀ (s : State) (a : Addr),
    let win := a.toNat / 2 ^ s.cfg.w % 4
    let off := a.toNat % 2 ^ s.cfg.w
    (busError s.cfg a = true → RaisedBusError (exec (.busRead a) s) s) ∧
    (busError s.cfg a = false →
      (win = 0 → off = 0x000 → AnsweredRead (exec (.busRead a) s) s 0x42363401) ∧
      (win = 0 → off = 0x004 → AnsweredRead (exec (.busRead a) s) s 0) ∧
      (win = 0 → off = 0x008 → AnsweredRead (exec (.busRead a) s) s (statusWord s.busy s.status)) ∧
      (win = 0 → off = 0x00C → AnsweredRead (exec (.busRead a) s) s (s.inLen.setWidth 32)) ∧
      (win = 0 → off = 0x010 →
        AnsweredRead (exec (.busRead a) s) s (if s.busy = true then 0 else s.outLen.setWidth 32)) ∧
      (win = 0 → off = 0x014 → AnsweredRead (exec (.busRead a) s) s (if s.ie = true then 1 else 0)) ∧
      (win = 1 → AnsweredRead (exec (.busRead a) s) s
        (inBufByte s (off + 3) ++ inBufByte s (off + 2) ++ inBufByte s (off + 1) ++ inBufByte s off)) ∧
      (win = 2 → AnsweredRead (exec (.busRead a) s) s
        (outView s (off + 3) ++ outView s (off + 2) ++ outView s (off + 1) ++ outView s off)) ∧
      (win = 0 ∧ (off = 0x000 ∨ off = 0x004 ∨ off = 0x008 ∨ off = 0x00C ∨ off = 0x010 ∨ off = 0x014) ∨
        win = 1 ∨ win = 2))

/-- The STATUS word as a number (43_host_commands.md R202): BUSY at 0, DONE at 1, ERR at 2, CODE at [6:4], ERR_BYTE at
[15:8], WERR at 16, every other bit 0. -/
def Obligations.StatusWordPlacesItsFields : Prop :=
  ∀ (busy : Bool) (st : Status),
    (statusWord busy st).toNat =
      st.werr.toNat * 0x10000 + st.errByte.toNat * 0x100 + st.code.toNat * 0x10 + st.err.toNat * 4 +
        st.done.toNat * 2 + busy.toNat

/-- The five conditions of 20_memory.md R67, for a read and for a write, whatever BUSY is; when none holds the
response has `bus_err = 0`. -/
def Obligations.BusErrorExactlyOnTheFiveConditions : Prop :=
  ∀ (s : State) (a : Addr) (v : Word),
    let win := a.toNat / 2 ^ s.cfg.w % 4
    let off := a.toNat % 2 ^ s.cfg.w
    let bad := a.toNat % 4 ≠ 0 ∨ win = 3 ∨
      (win = 0 ∧ off ≠ 0x000 ∧ off ≠ 0x004 ∧ off ≠ 0x008 ∧ off ≠ 0x00C ∧ off ≠ 0x010 ∧ off ≠ 0x014) ∨
      (win = 1 ∧ s.cfg.inCap ≤ off) ∨ (win = 2 ∧ 4 * ((s.cfg.inCap + 2) / 3) ≤ off)
    (bad → RaisedBusError (exec (.busRead a) s) s ∧ RaisedBusError (exec (.busWrite a v) s) s) ∧
    (¬bad → (∃ t, exec (.busRead a) s = .next t ∧ t.busErr = false) ∧
      ∃ t, exec (.busWrite a v) s = .next t ∧ t.busErr = false)

/-- Row INBUF_WRITE raises the bus error of its window-1 offset: misaligned, or at or above `IN_CAP` (20_memory.md
R67, opcode_table.json; log 8). -/
def Obligations.InbufWriteBusError : Prop :=
  ∀ (s : State) (off : Addr) (v : Word), validParams s.cfg = true → off.toNat < 2 ^ s.cfg.w →
    off.toNat % 4 ≠ 0 ∨ s.cfg.inCap ≤ off.toNat → RaisedBusError (exec (.inbufWrite off v) s) s

/-- The masked output view (10_state.md R24): lane `j` of a read of window 2. -/
def Obligations.OutputReadIsMasked : Prop :=
  ∀ (s : State) (a : Addr) (j : Nat), j < 4 →
    a.toNat / 2 ^ s.cfg.w % 4 = 2 → a.toNat % 4 = 0 → a.toNat % 2 ^ s.cfg.w < outCap s.cfg →
    ∃ v : Word, AnsweredRead (exec (.busRead a) s) s v ∧
      v.extractLsb' (8 * j) 8 =
        if s.busy = false ∧ a.toNat % 2 ^ s.cfg.w + j < s.outLen.toNat then
          outStoreByte s (a.toNat % 2 ^ s.cfg.w + j)
        else 0

/-- No read has a side effect, and reading again answers the same (20_memory.md R70). -/
def Obligations.ReadsAreIdempotent : Prop :=
  ∀ (s : State) (a b : Addr),
    ∃ t, exec (.busRead a) s = .next t ∧
      { t with busRdata := s.busRdata, busErr := s.busErr } = s ∧
      exec (.busRead b) t = exec (.busRead b) s

/-- Lane order (20_memory.md R65): a word written to a mapped window-1 offset while idle reads back, and byte `off +
j` of `InBuf` is its bits `[8j+7 : 8j]`. -/
def Obligations.BufferWordIsLittleEndian : Prop :=
  ∀ (s : State) (off : Addr) (v : Word),
    validParams s.cfg = true → s.busy = false → off.toNat % 4 = 0 → off.toNat < s.cfg.inCap →
    ∃ t, exec (.inbufWrite off v) s = .next t ∧
      (∀ j, j < 4 → (inBufByte t (off.toNat + j)).toNat = v.toNat / 2 ^ (8 * j) % 256) ∧
      AnsweredRead (exec (.busRead (BitVec.ofNat 24 (2 ^ s.cfg.w + off.toNat))) t) t v

/-- What `OutStore` holds where the view shows 0, and the address `BASE` of the block, are never observable: two states
that are the same to the host stay the same to the host, response and interrupt line included, at every edge
(10_state.md R24, R40; 20_memory.md R61). -/
def Obligations.HiddenOutStoreIsUnobservable : Prop :=
  ∀ s t s' t' : State, SameToHost s t → step s = .next s' → step t = .next t' →
    SameToHost s' t' ∧ s'.irq = t'.irq

/-! ## Writes -/

/-- IN_LEN_WRITE (43_host_commands.md R206): dropped while BUSY; otherwise the low 24 bits are stored, whatever their
value, and nothing else changes. -/
def Obligations.InLenWriteStoresTheLow24Bits : Prop :=
  ∀ (s : State) (v : Word),
    (s.busy = false → TakenWrite (exec (.inLenWrite v) s) { s with inLen := BitVec.ofNat 24 v.toNat }) ∧
    (s.busy = true → TakenWrite (exec (.inLenWrite v) s) { s with status := { s.status with werr := true } })

/-- IRQ_EN_WRITE (43_host_commands.md R207): accepted in every state; `irq` follows at once (60_exceptions.md R251). -/
def Obligations.IrqEnWriteIsAlwaysAccepted : Prop :=
  ∀ (s : State) (v : Word),
    TakenWrite (exec (.irqEnWrite v) s) { s with ie := decide (v.toNat % 2 = 1) } ∧
    ∀ t, exec (.irqEnWrite v) s = .next t → t.irq = (s.status.done && decide (v.toNat % 2 = 1))

/-- INBUF_WRITE while idle (43_host_commands.md R204): the four bytes at `off`, every other byte as before, and nothing
else but the response: the output view and `OUT_LEN` stay. -/
def Obligations.InbufWriteStoresFourBytes : Prop :=
  ∀ (s : State) (off : Addr) (v : Word),
    validParams s.cfg = true → s.busy = false → off.toNat % 4 = 0 → off.toNat < s.cfg.inCap →
    ∃ t, exec (.inbufWrite off v) s = .next t ∧ TakenWrite (exec (.inbufWrite off v) s) { s with inBuf := t.inBuf } ∧
      (∀ j, j < 4 → t.inBuf.read? (off.toNat + j) = some (v.extractLsb' (8 * j) 8)) ∧
      (∀ i, i < off.toNat ∨ off.toNat + 4 ≤ i → t.inBuf.read? i = s.inBuf.read? i ∧ inBufByte t i = inBufByte s i) ∧
      ∀ i, outView t i = outView s i

/-- A write to CTRL, IN_LEN or a mapped window-1 word while BUSY is dropped (43_host_commands.md R205): `WERR <- 1`,
nothing else changes, `bus_err = 0`; for every row that makes such a write, and for BUS_WRITE at those offsets. A
write to IRQ_EN is not dropped. -/
def Obligations.WriteWhileBusyIsDropped : Prop :=
  ∀ (s : State) (a off : Addr) (v : Word) (op : BitVec 2),
    s.busy = true →
    let dropped := { s with status := { s.status with werr := true } }
    TakenWrite (exec (.ctrlWrite v) s) dropped ∧ TakenWrite (exec (.inLenWrite v) s) dropped ∧
    TakenWrite (exec .cmdNone s) dropped ∧ TakenWrite (exec .cmdEncode s) dropped ∧
    TakenWrite (exec .cmdDecode s) dropped ∧ TakenWrite (exec .cmdRsvd s) dropped ∧
    TakenWrite (exec (.clr op) s) dropped ∧
    TakenWrite (exec (.irqEnWrite v) s) { s with ie := decide (v.toNat % 2 = 1) } ∧
    (validParams s.cfg = true → off.toNat % 4 = 0 → off.toNat < s.cfg.inCap →
      TakenWrite (exec (.inbufWrite off v) s) dropped) ∧
    (busError s.cfg a = false →
      (window s.cfg a = 0 ∧ (offset s.cfg a = 0x004 ∨ offset s.cfg a = 0x00C)) ∨ window s.cfg a = 1 →
      TakenWrite (exec (.busWrite a v) s) dropped)

/-- Writes to read-only locations (20_memory.md R68): ID, STATUS, OUT_LEN and every mapped word of window 2; ignored,
`bus_err = 0`, no state change, whether or not BUSY is 1. A read of CTRL returns 0. -/
def Obligations.ReadOnlyWritesAreIgnored : Prop :=
  ∀ (s : State) (a : Addr) (v : Word),
    (a.toNat = 0x000 ∨ a.toNat = 0x008 ∨ a.toNat = 0x010 ∨
      (a.toNat / 2 ^ s.cfg.w % 4 = 2 ∧ a.toNat % 4 = 0 ∧ a.toNat % 2 ^ s.cfg.w < outCap s.cfg)) →
    5 ≤ s.cfg.w →
    TakenWrite (exec (.busWrite a v) s) s ∧ AnsweredRead (exec (.busRead 0x004) s) s 0

/-- The rows that refine BUS_WRITE by address mean what BUS_WRITE means there (30_encoding.md R98, 43_host_commands.md
R201). -/
def Obligations.BusWriteMeansItsRefinedRow : Prop :=
  ∀ (s : State) (a : Addr) (v : Word), validParams s.cfg = true → a.toNat < 2 ^ (s.cfg.w + 2) →
    exec (.busWrite a v) s = exec (decodeBus s.cfg true a v) s ∧
    exec (.busWrite 0x004 v) s = exec (.ctrlWrite v) s ∧
    exec (.busWrite 0x00C v) s = exec (.inLenWrite v) s ∧
    exec (.busWrite 0x014 v) s = exec (.irqEnWrite v) s

/-! ## Commands -/

/-- CTRL_WRITE dispatches to the row of its command word (43_host_commands.md R208), from every state. The model's
choice: a command row's meaning carries the response of its CTRL write (log 9). -/
def Obligations.CtrlWriteRunsItsCommandRow : Prop :=
  ∀ (s : State) (v : Word), exec (.ctrlWrite v) s = exec (decodeCtrl v) s

/-- Reserved bits of CTRL, IN_LEN and IRQ_EN are ignored on write and no value of them is illegal (30_encoding.md
R92). -/
def Obligations.ReservedBitsAreIgnored : Prop :=
  ∀ (s : State) (v v' : Word),
    (v.toNat % 4 = v'.toNat % 4 → v.toNat / 256 % 2 = v'.toNat / 256 % 2 →
      exec (.ctrlWrite v) s = exec (.ctrlWrite v') s) ∧
    (v.toNat % 2 ^ 24 = v'.toNat % 2 ^ 24 → exec (.inLenWrite v) s = exec (.inLenWrite v') s) ∧
    (v.toNat % 2 = v'.toNat % 2 → exec (.irqEnWrite v) s = exec (.irqEnWrite v') s)

/-- CMD_NONE while idle changes nothing but the response (43_host_commands.md R210); CTRL writes with `OP = 0`, `CLR =
0` are that no-op whatever their reserved bits. -/
def Obligations.CmdNoneWhileIdleIsANoOp : Prop :=
  ∀ (s : State) (v : Word), s.busy = false →
    TakenWrite (exec .cmdNone s) s ∧
    (v.toNat % 4 = 0 → v.toNat / 256 % 2 = 0 → TakenWrite (exec (.ctrlWrite v) s) s)

/-- An accepted start (43_host_commands.md R212): idle and `IN_LEN.LEN <= IN_CAP`; `WERR` is kept. -/
def Obligations.AcceptedStartRunsTheEngine : Prop :=
  ∀ s : State, s.busy = false → s.inLen.toNat ≤ s.cfg.inCap →
    let started (op : CodecOp) : State :=
      { s with
        eng := .run op s.inLen, outLen := 0,
        status := { done := false, err := false, code := 0, errByte := 0, werr := s.status.werr } }
    TakenWrite (exec .cmdEncode s) (started .encode) ∧ TakenWrite (exec .cmdDecode s) (started .decode) ∧
    ∀ op, (started op).busy = true ∧ (started op).irq = false

/-- A start with `IN_LEN.LEN > IN_CAP` is an immediate completion with CODE 5 (43_host_commands.md R213): the engine
stays IDLE. -/
def Obligations.LengthAboveCapacityIsRefused : Prop :=
  ∀ s : State, s.busy = false → s.cfg.inCap < s.inLen.toNat →
    let refused : State :=
      { s with
        outLen := 0, status := { done := true, err := true, code := 5, errByte := 0, werr := s.status.werr } }
    TakenWrite (exec .cmdEncode s) refused ∧ TakenWrite (exec .cmdDecode s) refused ∧ refused.busy = false

/-- CMD_RSVD while idle is an immediate completion with CODE 4, whatever IN_LEN holds (43_host_commands.md R214). -/
def Obligations.ReservedCommandIsRefused : Prop :=
  ∀ s : State, s.busy = false →
    TakenWrite (exec .cmdRsvd s)
      { s with
        outLen := 0, status := { done := true, err := true, code := 4, errByte := 0, werr := s.status.werr } }

/-- CLR while idle (43_host_commands.md R209): DONE, ERR, CODE, ERR_BYTE and WERR are cleared first, nothing else, and
then `OP` acts on the cleared status as its own row does. -/
def Obligations.ClrClearsThenOpActs : Prop :=
  ∀ s : State, s.busy = false →
    let cleared : State :=
      { s with status := { done := false, err := false, code := 0, errByte := 0, werr := false } }
    TakenWrite (exec (.clr 0) s) cleared ∧ cleared.irq = false ∧
    exec (.clr 0) s = exec .cmdNone cleared ∧ exec (.clr 1) s = exec .cmdEncode cleared ∧
    exec (.clr 2) s = exec .cmdDecode cleared ∧ exec (.clr 3) s = exec .cmdRsvd cleared

/-- After a CTRL write with `OP != 0` taken while idle, OUT_LEN and STATUS describe that write's command and nothing
earlier, but for WERR (43_host_commands.md R216, the spec's own inference "[derived: from rules R212, R213, R214]"):
two states that share IN_LEN and the capacity end with the same. -/
def Obligations.CommandDescribesNothingEarlier : Prop :=
  ∀ (s s' : State) (v : Word),
    s.busy = false → s'.busy = false → s.inLen = s'.inLen → s.cfg = s'.cfg → v.toNat % 4 ≠ 0 →
    ∃ t t', exec (.ctrlWrite v) s = .next t ∧ exec (.ctrlWrite v) s' = .next t' ∧
      t.outLen = 0 ∧ t'.outLen = 0 ∧ t.eng = t'.eng ∧
      t.status.describes t'.status.done t'.status.err t'.status.code t'.status.errByte ∧
      (t.busy = true ∨ t.status.done = true)

/-! ## Completion -/

/-- COMPLETE of an ENCODE (43_host_commands.md R220, 41_encoder.md R150): the output is placed from index 0, OUT_LEN
is `4 * ceil(n/3)`, STATUS shows DONE and no error, BUSY falls, everything else stays, the bytes of OutStore beyond the
text too. -/
def Obligations.EncodeCompletionPlacesTheText : Prop :=
  ∀ (s : State) (len : Len),
    validParams s.cfg = true → s.eng = .run .encode len → len.toNat ≤ s.cfg.inCap →
    let out := encodeMsg ((List.range len.toNat).map (inBufByte s))
    complete s =
      { s with
        eng := .idle, outLen := (complete s).outLen, outStore := (complete s).outStore,
        status := { done := true, err := false, code := 0, errByte := 0, werr := s.status.werr } } ∧
    (complete s).outLen.toNat = 4 * ((len.toNat + 2) / 3) ∧
    (∀ i, i < out.length → (complete s).outStore.read? i = out[i]?) ∧
    (∀ i, out.length ≤ i → (complete s).outStore.read? i = s.outStore.read? i) ∧
    (∀ i, outView (complete s) i = out.getD i 0)

/-- COMPLETE of a DECODE (43_host_commands.md R220, 42_decoder.md R160, R169, R178): a result is placed from index 0;
an error sets CODE and ERR_BYTE and shows no byte, and OutStore then takes any values; everything else stays, after a
result the bytes of OutStore beyond it too. -/
def Obligations.DecodeCompletionReportsTheResult : Prop :=
  ∀ (s : State) (len : Len),
    validParams s.cfg = true → s.eng = .run .decode len → len.toNat ≤ s.cfg.inCap →
    let t := complete s
    let failed (code : BitVec 3) (b : Byte) : Prop :=
      t = { s with
        eng := .idle, outLen := 0, outStore := t.outStore, outDraws := t.outDraws,
        status := { done := true, err := true, code := code, errByte := b, werr := s.status.werr } } ∧
      ∀ i, outView t i = 0
    match decodeMsg ((List.range len.toNat).map (inBufByte s)) with
    | .ok out =>
      t = { s with
        eng := .idle, outLen := t.outLen, outStore := t.outStore,
        status := { done := true, err := false, code := 0, errByte := 0, werr := s.status.werr } } ∧
      t.outLen.toNat = out.length ∧ (∀ i, i < out.length → t.outStore.read? i = out[i]?) ∧
      (∀ i, out.length ≤ i → t.outStore.read? i = s.outStore.read? i) ∧ ∀ i, outView t i = out.getD i 0
    | .err .inputLength b => b = 0 ∧ failed 1 0
    | .err .wrongPadding b => b = 0 ∧ failed 2 0
    | .err .invalidByte b => failed 3 b

/-- Order at one edge (20_memory.md R73 point 3, 70_reset_and_hazards.md R285): a start never completes at its own
edge, and a CTRL, IN_LEN or window-1 write at the edge of a completion is dropped, WERR set, and the command
completes. The model's choice: the schedule says at which edges the engine's step falls (log 3). -/
def Obligations.TransactionIsOrderedBeforeCompletion : Prop :=
  ∀ s t : State, validParams s.cfg = true → (nextPins s).rstN = true → step s = .next t →
    (s.busy = false → (nextPins s).req = true →
      exec (decodeBus s.cfg (nextPins s).we (nextPins s).addr (nextPins s).wdata) (takeInput s) = .next t) ∧
    (s.busy = true → (nextPins s).engine = true → t.busy = false ∧ t.status.done = true) ∧
    (∀ a v, s.busy = true → presentsWrite s a v → busError s.cfg a = false →
      a = 0x004 ∨ a = 0x00C ∨ window s.cfg a = 1 →
      t.status.werr = true ∧ t.inBuf = s.inBuf ∧ t.inLen = s.inLen)

/-- While ENG runs, `IN_LEN.LEN` and `InBuf` do not change (10_state.md R36, 20_memory.md R74), at any edge but a
reset edge, which cancels the command and still keeps `InBuf` (70_reset_and_hazards.md R271). -/
def Obligations.EngineInputIsStable : Prop :=
  ∀ s t : State, s.busy = true → step s = .next t →
    t.inBuf = s.inBuf ∧ (¬atReset s → t.inLen = s.inLen) ∧ (atReset s → t.eng = .idle ∧ t.outLen = 0)

/-- No host operation cancels a command in flight (43_host_commands.md R222): without a reset, a running command goes
on until the engine's step, whatever transaction the edge presents. The model's choice: the schedule says at which edges
the engine's step falls (log 3). -/
def Obligations.NoTransactionCancelsACommand : Prop :=
  ∀ (s t : State) (op : CodecOp) (len : Len),
    s.eng = .run op len → ¬atReset s → step s = .next t →
    ((nextPins s).engine = false → t.eng = .run op len ∧ t.outLen = s.outLen ∧ t.outStore = s.outStore) ∧
    ((nextPins s).engine = true → t.eng = .idle)

/-- Progress (43_host_commands.md R221): a running command completes unless reset intervenes, in this model at the
latest at the first edge after the listed ones (log 3). -/
def Obligations.StartedCommandCompletes : Prop :=
  ∀ s : State, s.busy = true → (∀ c ∈ s.input, c.rstN = true) →
    ∃ n t, n ≤ s.input.length + 1 ∧ Sys2Proof.core.run n s = .next t ∧ t.busy = false ∧ t.status.done = true

/-- No state carries over between commands (10_state.md R25): the result depends only on the operation, the length and
`InBuf[0..len)`, not on OutStore, not on STATUS, not on the rest of InBuf. -/
def Obligations.ResultDependsOnTheCommandOnly : Prop :=
  ∀ (s s' : State) (op : CodecOp) (len : Len),
    s.eng = .run op len → s'.eng = .run op len → (∀ i, i < len.toNat → inBufByte s i = inBufByte s' i) →
    (complete s).outLen = (complete s').outLen ∧
    (complete s).status.describes (complete s').status.done (complete s').status.err (complete s').status.code
      (complete s').status.errByte ∧
    ∀ i, outView (complete s) i = outView (complete s') i

/-! ## The codec -/

/-- The bijection laws (40_alphabet_table.md R123, the spec's own inference "[derived: from rules R120 and R121]"). -/
def Obligations.AlphabetIsABijection : Prop :=
  (∀ i : Sextet, c2i (i2c i) = (true, i)) ∧
  (∀ (c : Byte) (i : Sextet), c2i c = (true, i) → i2c i = c) ∧
  (∀ i j : Sextet, i2c i = i2c j → i = j) ∧
  ∀ c : Byte, (∃ i, i2c i = c) ↔ (c2i c).1 = true

/-- The closed form of C2I (40_alphabet_table.md R122, the spec's own inference "[derived: from rule R121 and
10_state.md rule R20]"). -/
def Obligations.CharToIndexClosedForm : Prop :=
  ∀ c : Byte, c2i c =
    if 0x41 ≤ c.toNat ∧ c.toNat ≤ 0x5A then (true, BitVec.ofNat 6 (c.toNat - 0x41))
    else if 0x61 ≤ c.toNat ∧ c.toNat ≤ 0x7A then (true, BitVec.ofNat 6 (c.toNat - 0x47))
    else if 0x30 ≤ c.toNat ∧ c.toNat ≤ 0x39 then (true, BitVec.ofNat 6 (c.toNat + 0x04))
    else if c.toNat = 0x2B then (true, 62)
    else if c.toNat = 0x2F then (true, 63)
    else (false, 0)

/-- UNPACK24 of three bytes is the source's formulas on unbounded naturals (41_encoder.md R141, the spec's own
inference "[derived: from rule R140 and 30_encoding.md rule R94]"). -/
def Obligations.UnpackMatchesTheSourceFormulas : Prop :=
  ∀ b0 b1 b2 : Byte, ∃ s0 s1 s2 s3, unpack24 (groupOfBytes b0 b1 b2) = (s0, s1, s2, s3) ∧
    s0.toNat = b0.toNat >>> 2 ∧
    s1.toNat = ((b0.toNat <<< 4) ||| (b1.toNat >>> 4)) &&& 0x3F ∧
    s2.toNat = ((b1.toNat <<< 2) ||| (b2.toNat >>> 6)) &&& 0x3F ∧
    s3.toNat = b2.toNat &&& 0x3F

/-- PACK24 is the source's formulas, each reduced to 8 bits, and undoes UNPACK24 (42_decoder.md R176; the reduction is
the spec's own inference "[derived: from 00_scope.md rule R11 and the §8 vector]"). -/
def Obligations.PackMatchesTheSourceFormulas : Prop :=
  (∀ s0 s1 s2 s3 : Sextet, ∃ b0 b1 b2, pack24 s0 s1 s2 s3 = (b0, b1, b2) ∧
    b0.toNat = ((s0.toNat <<< 2) ||| (s1.toNat >>> 4)) &&& 0xFF ∧
    b1.toNat = ((s1.toNat <<< 4) ||| (s2.toNat >>> 2)) &&& 0xFF ∧
    b2.toNat = ((s2.toNat <<< 6) ||| s3.toNat) &&& 0xFF) ∧
  ∀ b0 b1 b2 : Byte,
    (match unpack24 (groupOfBytes b0 b1 b2) with
      | (s0, s1, s2, s3) => pack24 s0 s1 s2 s3) = (b0, b1, b2)

/-- EncodeMsg group by group (41_encoder.md R147, R142, R143): output group `g` is ENC_GROUP of the `m = min(3, n -
3g)` real bytes from `3g`, with absent bytes 0. -/
def Obligations.EncodeWorksGroupByGroup : Prop :=
  ∀ (t : List Byte) (g : Nat), g < (t.length + 2) / 3 →
    let m := min 3 (t.length - 3 * g)
    ((encodeMsg t).drop (4 * g)).take 4 =
      encGroup (t.getD (3 * g) 0) (if 2 ≤ m then t.getD (3 * g + 1) 0 else 0)
        (if m = 3 then t.getD (3 * g + 2) 0 else 0) m

/-- The length law (41_encoder.md R148, the spec's own inference "[derived: from rule R147: ceil(n/3) groups, each of
4 characters]"). -/
def Obligations.EncodeLengthLaw : Prop :=
  ∀ t : List Byte, (encodeMsg t).length = 4 * ((t.length + 2) / 3)

/-- The shape of the output (41_encoder.md R149, the spec's own inference "[derived: from rules R142 and R147]"): the
last `(3 - n mod 3) mod 3` characters are PAD and every other one is an alphabet character. -/
def Obligations.EncodeOutputShape : Prop :=
  ∀ (t : List Byte) (i : Nat), i < (encodeMsg t).length →
    let p := (3 - t.length % 3) % 3
    (i < (encodeMsg t).length - p → (c2i ((encodeMsg t).getD i 0)).1 = true) ∧
    ((encodeMsg t).length - p ≤ i → (encodeMsg t).getD i 0 = pad)

/-- Round trip (41_encoder.md R151, the spec's own inference "[derived: from rules R142, R147, 42_decoder.md rules
R170, R176 and 40_alphabet_table.md rule R123]"): decoding an encoded message gives the message, for every message. -/
def Obligations.DecodeInvertsEncode : Prop :=
  ∀ t : List Byte, decodeMsg (encodeMsg t) = .ok t

/-- What a successful decode yields (42_decoder.md R170 Steps 5 and 6, R177): every character of the core has a sextet,
and output bytes from `3g` are DEC_GROUP of the `m = min(4, core_len - 4g)` sextets from `4g`, absent ones 0. Its length
is R168's, the spec's own inference "[derived: from rules R170 and R177]". -/
def Obligations.DecodeLengthLaw : Prop :=
  ∀ t out : List Byte, decodeMsg t = .ok out →
    out.length = 3 * (coreLen t / 4) +
      (if coreLen t % 4 = 2 then 1 else if coreLen t % 4 = 3 then 2 else 0) ∧
    out.length ≤ t.length ∧
    ∀ g, g < (coreLen t + 3) / 4 →
      let m := min 4 (coreLen t - 4 * g)
      let x (k : Nat) : Sextet := if k < m then (c2i (t.getD (4 * g + k) 0)).2 else 0
      (∀ k, k < m → (c2i (t.getD (4 * g + k) 0)).1 = true) ∧
      (out.drop (3 * g)).take 3 = decGroup (x 0) (x 1) (x 2) (x 3) m

/-- The padding validator unit gives the answer of Steps 2 to 4 run in order (42_decoder.md R181, the spec's own
inference "[derived: from rules R162, R163 and R164]"): 0 exactly when the decode does not end in them, 1 and 2
exactly when it ends in InputLength and in WrongPadding. -/
def Obligations.ValidateAgreesWithSteps2To4 : Prop :=
  ∀ t : List Byte,
    let code := validate (coreLen t) (trailingLen t) (midPad (coreText t))
    (code = 1 ↔ decodeMsg t = .err .inputLength 0) ∧ (code = 2 ↔ decodeMsg t = .err .wrongPadding 0) ∧
    (code = 0 ↔ (∃ out, decodeMsg t = .ok out) ∨ ∃ b, decodeMsg t = .err .invalidByte b)

/-- Excess padding is accepted and changes nothing (42_decoder.md R171, the spec's own inference "[derived: from rules
R161 and R164]"): `c` ends in no PAD, and both counts meet Step 4. -/
def Obligations.ExcessPaddingChangesNothing : Prop :=
  ∀ (c : List Byte) (j k : Nat), c.getLast? ≠ some pad →
    (c.length % 4 = 2 → 2 ≤ j ∧ 2 ≤ k) → (c.length % 4 = 3 → 1 ≤ j ∧ 1 ≤ k) →
    decodeMsg (c ++ List.replicate j pad) = decodeMsg (c ++ List.replicate k pad)

/-- Which result a decode gives (42_decoder.md R166, R162-R165, R174): InputLength beats WrongPadding beats
InvalidByte, each over the whole message; InvalidByte carries the lowest-index character of the core without a sextet,
PAD among them. -/
def Obligations.DecodeErrorPriority : Prop :=
  ∀ (t : List Byte) (b : Byte),
    let n := coreLen t
    let lengthBad := n % 4 = 1
    let paddingBad := (∃ i, i < 4 * (n / 4) ∧ t[i]? = some pad) ∨ (n % 4 = 2 ∧ trailingLen t < 2) ∨
      (n % 4 = 3 ∧ trailingLen t < 1)
    let firstInvalid := ∃ i, i < n ∧ t[i]? = some b ∧ (c2i b).1 = false ∧
      ∀ k c, k < i → t[k]? = some c → (c2i c).1 = true
    (decodeMsg t = .err .inputLength 0 ↔ lengthBad) ∧
    (decodeMsg t = .err .wrongPadding 0 ↔ ¬lengthBad ∧ paddingBad) ∧
    (decodeMsg t = .err .invalidByte b ↔ ¬lengthBad ∧ ¬paddingBad ∧ firstInvalid)

/-- Non-canonical final characters are accepted (42_decoder.md R172). The bits of the last sextet that a partial group
drops are not checked, `s1[3:0]` when two sextets are left and `s2[1:0]` when three are: two messages whose last core
characters `a` and `b` differ only in those bits decode alike, and they decode to a result when every character has a
sextet and Step 4 holds. The rule's own examples are the last two clauses. -/
def Obligations.DroppedBitsAreNotChecked : Prop :=
  (∀ (c : List Byte) (a b : Byte) (x y : Sextet) (k : Nat),
    c2i a = (true, x) → c2i b = (true, y) →
    (c.length % 4 = 1 ∧ x.toNat / 16 = y.toNat / 16) ∨ (c.length % 4 = 2 ∧ x.toNat / 4 = y.toNat / 4) →
    decodeMsg (c ++ a :: List.replicate k pad) = decodeMsg (c ++ b :: List.replicate k pad) ∧
    ((∀ d ∈ c, (c2i d).1 = true) → 3 ≤ c.length % 4 + k →
      ∃ out, decodeMsg (c ++ a :: List.replicate k pad) = .ok out)) ∧
  (∀ s0 s1 s1' s2 s2' : Sextet,
    (s1.toNat / 16 = s1'.toNat / 16 → decGroup s0 s1 0 0 2 = decGroup s0 s1' 0 0 2) ∧
    (s2.toNat / 4 = s2'.toNat / 4 → decGroup s0 s1 s2 0 3 = decGroup s0 s1 s2' 0 3)) ∧
  decodeMsg [0x5A, 0x68, 0x3D, 0x3D] = .ok [0x66] ∧
  decodeMsg [0x5A, 0x6D, 0x39, 0x3D] = .ok [0x66, 0x6F]

/-- The empty message and any message made only of PAD decode to no bytes (42_decoder.md R173, the spec's own
inference "[derived: from rules R161 to R165]"). -/
def Obligations.PadOnlyMessageDecodesToNothing : Prop :=
  ∀ k : Nat, decodeMsg (List.replicate k pad) = .ok []

/-! ## Interrupt line and whole-machine rules -/

/-- The interrupt line (60_exceptions.md R250, 10_state.md R37): it is `DONE & IE`; a completion makes it IE; a read,
a bus error and, while BUSY, every transaction that leaves IE alone leave it alone. -/
def Obligations.InterruptLineFollowsDone : Prop :=
  ∀ (s t : State) (i : Instr),
    (s.irq = true ↔ s.status.done = true ∧ s.ie = true) ∧
    (s.busy = true → (complete s).irq = s.ie) ∧
    (exec i s = .next t → t.busErr = true → t.irq = s.irq) ∧
    (exec i s = .next t → s.busy = true → t.ie = s.ie → t.irq = s.irq) ∧
    (∀ a, i = .busRead a → exec i s = .next t → t.irq = s.irq)

/-- Every edge keeps the invariant of the block (see `Inv`: each part cites its rule) and the configuration, from
every state that has it. The model's choice: the canonical form of the buffers (Memory.wf). -/
def Obligations.EveryEdgeKeepsTheInvariant : Prop :=
  ∀ s t : State, Inv s → step s = .next t → Inv t ∧ t.cfg = s.cfg

/-- The state after reset has the invariant. The model's choice: State.reset's parameters (log 1). -/
def Obligations.ResetHasTheInvariant : Prop := Inv State.reset

/-- WERR is sticky (10_state.md R31): only CTRL.CLR, accepted while idle, and reset clear it. -/
def Obligations.OnlyClrAndResetClearWerr : Prop :=
  ∀ s t : State, s.status.werr = true → step s = .next t → t.status.werr = false →
    atReset s ∨ (s.busy = false ∧ ∃ v, presentsWrite s 0x004 v ∧ v.toNat / 256 % 2 = 1)

/-- Result lifetime (70_reset_and_hazards.md R282): while idle, the result stays readable over every edge but a reset
or a CTRL write with `OP != 0`. -/
def Obligations.ResultStaysUntilTheNextCommand : Prop :=
  ∀ s t : State, validParams s.cfg = true → s.busy = false → step s = .next t → ¬atReset s →
    (∀ v, presentsWrite s 0x004 v → v.toNat % 4 = 0) →
    t.busy = false ∧ t.outLen = s.outLen ∧ ∀ i, outView t i = outView s i

/-- Status after start (70_reset_and_hazards.md R283, the spec's own inference "[derived: from 20_memory.md rule R73
and 43_host_commands.md rule R212]"): once BUSY or DONE is 1, every edge leaves one of them 1, but for a reset or an
idle CLR with `OP = 0`. -/
def Obligations.BusyOrDoneAfterAStart : Prop :=
  ∀ s t : State, validParams s.cfg = true → (s.busy = true ∨ s.status.done = true) → step s = .next t → ¬atReset s →
    (∀ v, s.busy = false → presentsWrite s 0x004 v → ¬(v.toNat / 256 % 2 = 1 ∧ v.toNat % 4 = 0)) →
    t.busy = true ∨ t.status.done = true

/-- `InBuf` is written only by an aligned, mapped window-1 write accepted while idle (10_state.md R22): not by reset,
not by the engine, not by any other transaction. -/
def Obligations.OnlyAcceptedWritesChangeInBuf : Prop :=
  ∀ s t : State, validParams s.cfg = true → step s = .next t → t.inBuf ≠ s.inBuf →
    s.busy = false ∧ ∃ a v, presentsWrite s a v ∧ window s.cfg a = 1 ∧ a.toNat % 4 = 0 ∧ offset s.cfg a < s.cfg.inCap
end

