-- ==== Sys2Proof/Laws/Codec.lean ====
section
/-! SUPPORT. The laws of the codec's units: the alphabet, the splitting of a message into core and trailing PAD, the
checks as conditions on the message, translation, packing. -/

namespace Sys2Proof.Machine

/-! ### Alphabet -/

@[simp] theorem c2i_pad : c2i pad = (false, 0) := by decide

theorem i2c_ne_pad : ∀ i : Sextet, i2c i ≠ pad := by decide

@[simp] theorem c2i_i2c : ∀ i : Sextet, c2i (i2c i) = (true, i) := by decide

/-! ### Encoder -/

@[simp] theorem encGroup_length (a b c : Byte) (n : Nat) : (encGroup a b c n).length = 4 := rfl

/-- The sextets that the bytes of a message determine (41_encoder.md R142). -/
def sextets : List Byte → List Sextet
  | [] => []
  | [b0] =>
    match unpack24 (groupOfBytes b0 0 0) with
    | (s0, s1, _, _) => [s0, s1]
  | [b0, b1] =>
    match unpack24 (groupOfBytes b0 b1 0) with
    | (s0, s1, s2, _) => [s0, s1, s2]
  | b0 :: b1 :: b2 :: t =>
    match unpack24 (groupOfBytes b0 b1 b2) with
    | (s0, s1, s2, s3) => s0 :: s1 :: s2 :: s3 :: sextets t

/-- An encoded message is the characters of its sextets, then PAD. -/
theorem encodeMsg_eq : ∀ t : List Byte,
    encodeMsg t = (sextets t).map i2c ++ List.replicate ((3 - t.length % 3) % 3) pad
  | [] => rfl
  | [_] => rfl
  | [_, _] => rfl
  | b0 :: b1 :: b2 :: t => by
    have hm : (b0 :: b1 :: b2 :: t).length % 3 = t.length % 3 := by simp only [List.length_cons]; omega
    rw [encodeMsg, encodeMsg_eq t, hm]
    rfl

theorem sextets_length : ∀ t : List Byte,
    (sextets t).length = 4 * (t.length / 3) + (if t.length % 3 = 0 then 0 else t.length % 3 + 1)
  | [] => rfl
  | [_] => by simp [sextets]
  | [_, _] => by simp [sextets]
  | b0 :: b1 :: b2 :: t => by
    simp only [sextets, List.length_cons, sextets_length t]
    rw [show t.length + 1 + 1 + 1 = t.length + 3 by omega, show (t.length + 3) % 3 = t.length % 3 by omega]
    omega

/-! ### Trim (42_decoder.md R161) -/

theorem trailingLen_append (c : List Byte) (k : Nat) (h : c.getLast? ≠ some pad) :
    trailingLen (c ++ List.replicate k pad) = k := by
  rw [trailingLen, List.reverse_append, List.reverse_replicate, List.takeWhile_append_of_pos (by simp)]
  cases hc : c.reverse with
  | nil => simp
  | cons a l =>
    have : c.getLast? = some a := by rw [← List.head?_reverse, hc]; rfl
    have hne : a ≠ pad := fun e => h (by rw [this, e])
    simp [hne]

theorem coreLen_append (c : List Byte) (k : Nat) (h : c.getLast? ≠ some pad) :
    coreLen (c ++ List.replicate k pad) = c.length := by simp [coreLen, trailingLen_append c k h]

theorem coreText_append (c : List Byte) (k : Nat) (h : c.getLast? ≠ some pad) :
    coreText (c ++ List.replicate k pad) = c := by simp [coreText, coreLen_append c k h]

theorem coreLen_le (t : List Byte) : coreLen t ≤ t.length := by simp [coreLen]

@[simp] theorem coreText_length (t : List Byte) : (coreText t).length = coreLen t := by
  rw [coreText, List.length_take]; have := coreLen_le t; omega

theorem coreText_getElem? (t : List Byte) (i : Nat) (h : i < coreLen t) : (coreText t)[i]? = t[i]? := by
  rw [coreText, List.getElem?_take, if_pos h]

/-! ### Checks (R162-R164) -/

theorem badLength_iff (n : Nat) : badLength n = true ↔ n % 4 = 1 := by simp [badLength]

theorem midPad_iff (t : List Byte) :
    midPad (coreText t) = true ↔ ∃ i, i < 4 * (coreLen t / 4) ∧ t[i]? = some pad := by
  have hl := coreText_length t
  simp only [midPad, List.any_eq_true, beq_iff_eq, hl]
  constructor
  · rintro ⟨x, hx, rfl⟩
    obtain ⟨i, hi, e⟩ := List.mem_iff_getElem.mp hx
    rw [List.length_take, hl] at hi
    refine ⟨i, by omega, ?_⟩
    rw [← coreText_getElem? t i (by omega)]
    rw [List.getElem_take] at e
    rw [List.getElem?_eq_getElem (by omega), e]
  · rintro ⟨i, hi, e⟩
    rw [← coreText_getElem? t i (by omega)] at e
    refine ⟨pad, ?_, rfl⟩
    apply List.mem_of_getElem? (i := i)
    rw [List.getElem?_take, if_pos hi, e]

theorem shortPad_iff (n k : Nat) : shortPad n k = true ↔ (n % 4 = 2 ∧ k < 2) ∨ (n % 4 = 3 ∧ k < 1) := by
  simp [shortPad]

/-! ### Translation (R165) -/

theorem translateAll_length : ∀ (t : List Byte) (s : List Sextet), translateAll t = .ok s → s.length = t.length
  | [], s, h => by simp [translateAll] at h; subst h; rfl
  | c :: t, s, h => by
    simp only [translateAll] at h
    split at h
    · cases h
    · split at h
      · cases h
      · rename_i s' hs
        cases h
        simp [translateAll_length t s' hs]

@[simp] theorem translateAll_map_i2c : ∀ s : List Sextet, translateAll (s.map i2c) = .ok s
  | [] => rfl
  | a :: s => by simp [translateAll, translateAll_map_i2c s]

/-- Translation succeeds exactly when every character has a sextet, with the sextets in order. -/
theorem translateAll_ok_iff : ∀ (t : List Byte) (s : List Sextet), translateAll t = .ok s ↔
    (∀ c ∈ t, (c2i c).1 = true) ∧ s = t.map fun c => (c2i c).2
  | [], s => by
    simp only [translateAll, Except.ok.injEq, List.map_nil]
    exact ⟨fun h => ⟨by simp, h.symm⟩, fun h => h.2.symm⟩
  | c :: t, s => by
    have ih := translateAll_ok_iff t
    simp only [translateAll, List.mem_cons, forall_eq_or_imp, List.map_cons]
    split
    · rename_i h; simp [h]
    · rename_i x h
      split
      · rename_i b hb
        have hn : ¬∀ c ∈ t, (c2i c).1 = true := fun hv => by
          have := (ih _).mpr ⟨hv, rfl⟩
          rw [hb] at this; cases this
        simp [h, hn]
      · rename_i r hr
        obtain ⟨hv, rfl⟩ := (ih r).mp hr
        simp only [h, Except.ok.injEq, true_and]
        exact ⟨fun e => ⟨hv, e.symm⟩, fun e => e.2.symm⟩

/-- Translation fails at the lowest-index character without a sextet. -/
theorem translateAll_error_iff : ∀ (t : List Byte) (b : Byte), translateAll t = .error b ↔
    ∃ i, i < t.length ∧ t[i]? = some b ∧ (c2i b).1 = false ∧ ∀ k c, k < i → t[k]? = some c → (c2i c).1 = true
  | [], b => by simp [translateAll]
  | a :: t, b => by
    have ih := translateAll_error_iff t b
    simp only [translateAll]
    split
    · rename_i x hx
      constructor
      · intro h; cases h
        exact ⟨0, by simp, by simp, by simp [hx], by simp⟩
      · rintro ⟨i, hi, hb, hv, hk⟩
        cases i with
        | zero => simp at hb; rw [hb]
        | succ i => have := hk 0 a (by omega) (by simp); rw [hx] at this; cases this
    · rename_i x hx
      have key : (∃ i, i < (a :: t).length ∧ (a :: t)[i]? = some b ∧ (c2i b).1 = false ∧
          ∀ k c, k < i → (a :: t)[k]? = some c → (c2i c).1 = true) ↔ translateAll t = .error b := by
        rw [ih]
        constructor
        · rintro ⟨i, hi, hb, hv, hk⟩
          cases i with
          | zero => simp at hb; subst hb; rw [hx] at hv; cases hv
          | succ i =>
            exact ⟨i, by simpa using hi, by simpa using hb, hv,
              fun k c hk' hc => hk (k + 1) c (by omega) (by simpa using hc)⟩
        · rintro ⟨i, hi, hb, hv, hk⟩
          refine ⟨i + 1, by simpa using hi, by simpa using hb, hv, fun k c hk' hc => ?_⟩
          cases k with
          | zero => simp at hc; subst hc; rw [hx]
          | succ k => exact hk k c (by omega) (by simpa using hc)
      rw [key]
      split
      · rename_i b' hb'; rw [hb']
      · rename_i s hs; rw [hs]; simp

/-! ### Packing (R176, R177) -/

theorem packMsg_length : ∀ s : List Sextet, s.length % 4 ≠ 1 →
    (packMsg s).length =
      3 * (s.length / 4) + (if s.length % 4 = 2 then 1 else if s.length % 4 = 3 then 2 else 0)
  | [], _ => rfl
  | [_], h => by simp at h
  | [_, _], _ => by simp [packMsg, decGroup, pack24]
  | [_, _, _], _ => by simp [packMsg, decGroup, pack24]
  | a :: b :: c :: d :: t, h => by
    have h' : t.length % 4 ≠ 1 := by simp only [List.length_cons] at h; omega
    have hl : (a :: b :: c :: d :: t).length = t.length + 4 := rfl
    rw [packMsg, List.length_append, packMsg_length t h', hl]
    rw [show (t.length + 4) % 4 = t.length % 4 by omega]
    simp only [decGroup, pack24, List.length_take, List.length_cons, List.length_nil]
    omega

/-- Packing full groups first: the rest is packed on its own. -/
theorem packMsg_append : ∀ s r : List Sextet, s.length % 4 = 0 → packMsg (s ++ r) = packMsg s ++ packMsg r
  | [], _, _ => rfl
  | [_], _, h => by simp at h
  | [_, _], _, h => by simp at h
  | [_, _, _], _, h => by simp at h
  | a :: b :: c :: d :: s, r, h => by
    have h' : s.length % 4 = 0 := by simp only [List.length_cons] at h; omega
    simp only [List.cons_append, packMsg, packMsg_append s r h', List.append_assoc]

/-- Only InvalidByte reports a byte. -/
theorem decodeMsg_err_byte (t : List Byte) (k : ErrKind) (b : Byte) (h : decodeMsg t = .err k b) :
    k = .invalidByte ∨ b = 0 := by
  simp only [decodeMsg] at h
  split_ifs at h
  · cases h; exact .inr rfl
  · cases h; exact .inr rfl
  · cases h; exact .inr rfl
  · split at h <;> cases h; exact .inl rfl

end Sys2Proof.Machine
end

