-- ==== Sys2Proof/Laws/Memory.lean ====
section
/-! SUPPORT. The laws of a buffer's memory: read after write, and that every write keeps the canonical form and
the bounds. -/

namespace Sys2Proof.Machine

@[simp] theorem Memory.read?_nil (k : Nat) : Memory.read? [] k = none := rfl

@[simp] theorem Memory.writeAll_nil (m : Memory) (k : Nat) : m.writeAll k [] = m := rfl

@[simp] theorem Memory.writeAll_cons (m : Memory) (k : Nat) (b : Byte) (t : List Byte) :
    m.writeAll k (b :: t) = (m.write k b).writeAll (k + 1) t := rfl

/-- A read after a write gives the value written at its address, and what was there at every other. -/
theorem Memory.read?_write (m : Memory) (k : Nat) (v : Byte) (i : Nat) :
    (m.write k v).read? i = if i = k then some v else m.read? i := by
  induction m with
  | nil => by_cases h : k = i <;> simp [Memory.write, Memory.read?, h, eq_comm]
  | cons c m ih =>
    obtain ⟨a, b⟩ := c
    by_cases hlt : k < a
    · by_cases h : i = k
      · simp [Memory.write, Memory.read?, hlt, h]
      · simp [Memory.write, Memory.read?, hlt, h, Ne.symm h]
    · by_cases heq : k = a
      · by_cases h : i = k
        · simp [Memory.write, Memory.read?, heq, h]
        · have h' : a ≠ i := fun e => h (by rw [heq, e])
          simp [Memory.write, Memory.read?, heq, h', Ne.symm h']
      · by_cases hai : a = i
        · subst hai
          simp [Memory.write, Memory.read?, hlt, heq, Ne.symm heq]
        · simp [Memory.write, Memory.read?, hlt, heq, hai, ih]

@[simp] theorem Memory.read?_write_self (m : Memory) (k : Nat) (v : Byte) : (m.write k v).read? k = some v := by
  simp [Memory.read?_write]

theorem Memory.read?_write_ne (m : Memory) {k i : Nat} (v : Byte) (h : i ≠ k) :
    (m.write k v).read? i = m.read? i := by
  simp [Memory.read?_write, h]

/-- A read after writing bytes from `k`: the byte written there, or what was there before. -/
theorem Memory.read?_writeAll (l : List Byte) (m : Memory) (k i : Nat) :
    (m.writeAll k l).read? i = if k ≤ i ∧ i < k + l.length then l[i - k]? else m.read? i := by
  induction l generalizing m k with
  | nil => simp
  | cons b t ih =>
    rw [Memory.writeAll_cons, ih, Memory.read?_write]
    by_cases h : i = k
    · subst h; simp
    · by_cases hk : k + 1 ≤ i ∧ i < k + 1 + t.length
      · have h1 : i - k = (i - (k + 1)) + 1 := by omega
        have h2 : k ≤ i ∧ i < k + (b :: t).length := by simp; omega
        rw [if_pos hk, if_pos h2, h1, List.getElem?_cons_succ]
      · have h2 : ¬(k ≤ i ∧ i < k + (b :: t).length) := by simp; omega
        rw [if_neg hk, if_neg h2, if_neg h]

theorem Memory.risingFrom_mono {j k : Nat} (h : j ≤ k) {m : Memory} (hm : Memory.risingFrom k m = true) :
    Memory.risingFrom j m = true := by
  cases m with
  | nil => rfl
  | cons c m =>
    simp only [Memory.risingFrom, Bool.and_eq_true, decide_eq_true_eq] at hm ⊢
    exact ⟨Nat.le_trans h hm.1, hm.2⟩

theorem Memory.risingFrom_write (m : Memory) {j k : Nat} (v : Byte) (hj : j ≤ k)
    (hm : Memory.risingFrom j m = true) : Memory.risingFrom j (m.write k v) = true := by
  induction m generalizing j with
  | nil => simp [Memory.write, Memory.risingFrom, hj]
  | cons c m ih =>
    obtain ⟨a, b⟩ := c
    simp only [Memory.risingFrom, Bool.and_eq_true, decide_eq_true_eq] at hm
    by_cases hlt : k < a
    · simp only [Memory.write, hlt, if_true, Memory.risingFrom, Bool.and_eq_true, decide_eq_true_eq]
      exact ⟨hj, by omega, hm.2⟩
    · by_cases heq : k = a
      · simp only [Memory.write, heq, Nat.lt_irrefl, if_false, if_true, Memory.risingFrom, Bool.and_eq_true,
          decide_eq_true_eq]
        exact hm
      · simp only [Memory.write, hlt, heq, if_false, Memory.risingFrom, Bool.and_eq_true, decide_eq_true_eq]
        exact ⟨hm.1, ih (by omega) hm.2⟩

/-- A write keeps the canonical form. -/
theorem Memory.wf_write (m : Memory) (k : Nat) (v : Byte) (hm : m.wf = true) : (m.write k v).wf = true :=
  Memory.risingFrom_write m v (Nat.zero_le k) hm

/-- Writing bytes keeps the canonical form. -/
theorem Memory.wf_writeAll (l : List Byte) (m : Memory) (k : Nat) (hm : m.wf = true) :
    (m.writeAll k l).wf = true := by
  induction l generalizing m k with
  | nil => exact hm
  | cons b t ih => exact ih (m.write k b) (k + 1) (Memory.wf_write m k b hm)

@[simp] theorem Memory.wf_nil : Memory.wf [] = true := rfl

@[simp] theorem Memory.below_nil (n : Nat) : Memory.below n [] = true := rfl

theorem Memory.below_write (m : Memory) {n k : Nat} (v : Byte) (hk : k < n) (hm : Memory.below n m = true) :
    Memory.below n (m.write k v) = true := by
  induction m with
  | nil => simp [Memory.write, Memory.below, hk]
  | cons c m ih =>
    obtain ⟨a, b⟩ := c
    simp only [Memory.below, List.all_cons, Bool.and_eq_true, decide_eq_true_eq] at hm ih ⊢
    simp only [Memory.write]
    split
    · simp only [List.all_cons, Bool.and_eq_true, decide_eq_true_eq]; exact ⟨hk, hm⟩
    · split
      · simp only [List.all_cons, Bool.and_eq_true, decide_eq_true_eq]; exact ⟨hk, hm.2⟩
      · simp only [List.all_cons, Bool.and_eq_true, decide_eq_true_eq]; exact ⟨hm.1, ih hm.2⟩

theorem Memory.below_writeAll (l : List Byte) (m : Memory) {n k : Nat} (hk : k + l.length ≤ n)
    (hm : Memory.below n m = true) : Memory.below n (m.writeAll k l) = true := by
  induction l generalizing m k with
  | nil => exact hm
  | cons b t ih =>
    simp only [List.length_cons] at hk
    exact ih (m.write k b) (by omega) (Memory.below_write m b (by omega) hm)

end Sys2Proof.Machine
end

