-- ==== Sys2Proof/Laws/Operands.lean ====
section
/-! SUPPORT. What the valid parameters give, how an offset splits into window and offset, when a transaction is a bus
error, and the lanes and fields of a word. -/

namespace Sys2Proof.Machine

/-- `{high, low}` as a sum. -/
theorem shiftLeft_or_eq_add (a b k : Nat) (h : b < 2 ^ k) : (a <<< k) ||| b = a * 2 ^ k + b := by
  rw [← Nat.shiftLeft_add_eq_or_of_lt h, Nat.shiftLeft_eq]

/-! ### Parameters -/

/-- The constraints of 00_scope.md R8, one field each. -/
structure ValidParams (p : Params) : Prop where
  cap4 : p.inCap % 4 = 0
  capLow : 4 ≤ p.inCap
  outFits : outCap p ≤ 2 ^ p.w
  wLow : 5 ≤ p.w
  wHigh : p.w ≤ 22
  baseAligned : p.base % 2 ^ (p.w + 2) = 0

theorem validParams_iff (p : Params) : validParams p = true ↔ ValidParams p := by
  simp only [validParams, Bool.and_eq_true, beq_iff_eq, decide_eq_true_eq]
  exact ⟨fun h => ⟨h.1.1.1.1.1, h.1.1.1.1.2, h.1.1.1.2, h.1.1.2, h.1.2, h.2⟩,
    fun h => ⟨⟨⟨⟨⟨h.cap4, h.capLow⟩, h.outFits⟩, h.wLow⟩, h.wHigh⟩, h.baseAligned⟩⟩

theorem ValidParams.of {p : Params} (h : validParams p = true) : ValidParams p := (validParams_iff p).mp h

theorem window_size_low {p : Params} (h : 5 ≤ p.w) : 32 ≤ 2 ^ p.w :=
  Nat.pow_le_pow_right (n := 2) (by omega) h

theorem ValidParams.size_high {p : Params} (h : ValidParams p) : 2 ^ p.w ≤ 4194304 :=
  Nat.pow_le_pow_right (n := 2) (by omega) h.wHigh

theorem ValidParams.size_mod_four {p : Params} (h : ValidParams p) : 2 ^ p.w % 4 = 0 := by
  obtain ⟨k, hk⟩ := Nat.exists_eq_add_of_le h.wLow
  rw [hk, Nat.pow_add]; omega

theorem ValidParams.inCap_le {p : Params} (h : ValidParams p) : p.inCap ≤ 2 ^ p.w := by
  have := h.outFits; simp only [outCap] at this; omega

theorem ValidParams.inCap_le_outCap {p : Params} (_ : ValidParams p) : p.inCap ≤ outCap p := by
  simp only [outCap]; omega

theorem ValidParams.outCap_le {p : Params} (h : ValidParams p) : outCap p ≤ 4194304 :=
  Nat.le_trans h.outFits h.size_high

/-- The `AW`-bit space is four windows, and 24 bits hold it. -/
theorem ValidParams.space {p : Params} (h : ValidParams p) : 2 ^ (p.w + 2) = 4 * 2 ^ p.w ∧ 2 ^ (p.w + 2) ≤ 2 ^ 24 := by
  have := h.size_high
  rw [Nat.pow_add]; omega

/-! ### Offsets -/

theorem ValidParams.offset_mod_four {p : Params} (h : ValidParams p) (n : Nat) : n % 2 ^ p.w % 4 = n % 4 :=
  Nat.mod_mod_of_dvd _ (Nat.dvd_of_mod_eq_zero h.size_mod_four)

/-- A port offset is its window's base and the offset in it. -/
theorem addr_split {p : Params} (a : Addr) (h : a.toNat < 2 ^ (p.w + 2)) :
    a.toNat = 2 ^ p.w * window p a + offset p a ∧ offset p a < 2 ^ p.w := by
  have h1 : a.toNat / 2 ^ p.w < 4 := by
    rw [Nat.div_lt_iff_lt_mul (Nat.two_pow_pos _)]; rw [Nat.pow_add] at h; omega
  simp only [window, offset]
  rw [Nat.mod_eq_of_lt h1]
  exact ⟨(Nat.div_add_mod _ _).symm, Nat.mod_lt _ (Nat.two_pow_pos _)⟩

/-- The registers' offsets are in window 0. -/
theorem small_addr {p : Params} (h : 5 ≤ p.w) (a : Addr) (ha : a.toNat < 32) :
    window p a = 0 ∧ offset p a = a.toNat := by
  have := window_size_low h
  simp only [window, offset]
  rw [Nat.div_eq_of_lt (by omega), Nat.mod_eq_of_lt (a := a.toNat) (by omega)]; simp

theorem portAddr_lt (p : Params) (a : Addr) : (portAddr p a).toNat < 2 ^ (p.w + 2) := by
  simp only [portAddr, addrBits, BitVec.toNat_ofNat]
  exact Nat.lt_of_le_of_lt (Nat.mod_le _ _) (Nat.mod_lt _ (Nat.two_pow_pos _))

theorem portAddr_of_fits {p : Params} {a : Addr} (h : a.toNat < 2 ^ (p.w + 2)) : portAddr p a = a := by
  simp only [portAddr, addrBits]; rw [Nat.mod_eq_of_lt h]; simp

theorem ValidParams.inWindow_toNat {p : Params} (h : ValidParams p) (off : Addr) :
    (inWindow p off).toNat = 2 ^ p.w + off.toNat % 2 ^ p.w := by
  have := h.size_high
  have h2 : off.toNat % 2 ^ p.w < 2 ^ p.w := Nat.mod_lt _ (Nat.two_pow_pos _)
  simp only [inWindow, BitVec.toNat_ofNat]
  exact Nat.mod_eq_of_lt (by omega)

theorem ValidParams.window_inWindow {p : Params} (h : ValidParams p) (off : Addr) : window p (inWindow p off) = 1 := by
  simp only [window, h.inWindow_toNat]
  rw [Nat.add_div_left _ (Nat.two_pow_pos _), Nat.div_eq_of_lt (Nat.mod_lt _ (Nat.two_pow_pos _))]

theorem ValidParams.offset_inWindow {p : Params} (h : ValidParams p) (off : Addr) :
    offset p (inWindow p off) = off.toNat % 2 ^ p.w := by
  simp only [offset, h.inWindow_toNat]
  rw [Nat.add_mod_left, Nat.mod_mod]

/-- An aligned offset of window 1 is `inWindow` of its offset. -/
theorem ValidParams.inWindow_offset {p : Params} (h : ValidParams p) (a : Addr) (ha : a.toNat < 2 ^ (p.w + 2))
    (hw : window p a = 1) : inWindow p (BitVec.ofNat 24 (offset p a)) = a := by
  have hs := addr_split a ha
  have := h.size_high
  rw [hw] at hs
  apply BitVec.eq_of_toNat_eq
  rw [h.inWindow_toNat, BitVec.toNat_ofNat, Nat.mod_eq_of_lt (a := offset p a) (by omega), Nat.mod_eq_of_lt hs.2]
  omega

/-! ### BASE is not seen: the operand forms read only `W` and `IN_CAP` -/

theorem portAddr_congr {p q : Params} (hw : p.w = q.w) (a : Addr) : portAddr p a = portAddr q a := by
  simp only [portAddr, addrBits, hw]

theorem window_congr {p q : Params} (hw : p.w = q.w) (a : Addr) : window p a = window q a := by
  simp only [window, hw]

theorem offset_congr {p q : Params} (hw : p.w = q.w) (a : Addr) : offset p a = offset q a := by
  simp only [offset, hw]

theorem inWindow_congr {p q : Params} (hw : p.w = q.w) (a : Addr) : inWindow p a = inWindow q a := by
  simp only [inWindow, hw]

theorem busError_congr {p q : Params} (hc : p.inCap = q.inCap) (hw : p.w = q.w) (a : Addr) :
    busError p a = busError q a := by
  cases p; cases q; cases hc; cases hw; rfl

/-! ### Bus errors -/

theorem registerOffset_iff (o : Nat) : registerOffset o = true ↔
    o = 0x000 ∨ o = 0x004 ∨ o = 0x008 ∨ o = 0x00C ∨ o = 0x010 ∨ o = 0x014 := by
  simp [registerOffset, or_assoc]

/-- The five conditions of 20_memory.md R67 as one disjunction. -/
theorem busError_iff (p : Params) (a : Addr) : busError p a = true ↔
    (a.toNat % 4 ≠ 0 ∨ window p a = 3 ∨
      (window p a = 0 ∧ offset p a ≠ 0x000 ∧ offset p a ≠ 0x004 ∧ offset p a ≠ 0x008 ∧ offset p a ≠ 0x00C ∧
        offset p a ≠ 0x010 ∧ offset p a ≠ 0x014) ∨
      (window p a = 1 ∧ p.inCap ≤ offset p a) ∨ (window p a = 2 ∧ outCap p ≤ offset p a)) := by
  simp [busError, registerOffset, or_assoc, and_assoc]

/-- The bus error of a window-1 offset. -/
theorem ValidParams.busError_inWindow {p : Params} (h : ValidParams p) (off : Addr) :
    busError p (inWindow p off) = (off.toNat % 4 != 0 || decide (p.inCap ≤ off.toNat % 2 ^ p.w)) := by
  have h4 : (inWindow p off).toNat % 4 = off.toNat % 4 := by
    rw [h.inWindow_toNat]; have := h.offset_mod_four off.toNat; have := h.size_mod_four; omega
  simp only [busError, h.window_inWindow, h.offset_inWindow, h4]
  simp

/-- A mapped, aligned window-1 offset: no bus error, and the offset is itself. -/
theorem ValidParams.mapped_inWindow {p : Params} (h : ValidParams p) {off : Addr} (h4 : off.toNat % 4 = 0)
    (hc : off.toNat < p.inCap) : busError p (inWindow p off) = false ∧ offset p off = off.toNat := by
  have hlt : off.toNat < 2 ^ p.w := Nat.lt_of_lt_of_le hc h.inCap_le
  have hb := h.busError_inWindow off
  rw [Nat.mod_eq_of_lt hlt] at hb
  exact ⟨by rw [hb]; simp; omega, Nat.mod_eq_of_lt hlt⟩

/-- A mapped register offset raises no bus error. -/
theorem busError_register {p : Params} (h : 5 ≤ p.w) (a : Addr) (ha : a.toNat < 32) (h4 : a.toNat % 4 = 0)
    (hr : registerOffset a.toNat = true) : busError p a = false := by
  have := small_addr h a ha
  simp [busError, this.1, this.2, h4, hr]

/-! ### Lanes and fields -/

/-- Lane `j` of the word of four bytes is the `j`-th byte. -/
theorem lanes_wordOfBytes (a b c d : Byte) :
    laneByte (wordOfBytes a b c d) 0 = a ∧ laneByte (wordOfBytes a b c d) 1 = b ∧
      laneByte (wordOfBytes a b c d) 2 = c ∧ laneByte (wordOfBytes a b c d) 3 = d := by
  have h1 := a.isLt
  have h2 := b.isLt
  have h3 := c.isLt
  have h4 := d.isLt
  refine ⟨?_, ?_, ?_, ?_⟩ <;> apply BitVec.eq_of_toNat_eq <;>
    simp only [laneByte, wordOfBytes, BitVec.extractLsb'_toNat, BitVec.toNat_append, Nat.shiftRight_eq_div_pow] <;>
    (repeat rw [shiftLeft_or_eq_add _ _ _ (by omega)]) <;> omega

/-- A word is the word of its lanes. -/
theorem wordOfBytes_lanes (v : Word) : wordOfBytes (laneByte v 0) (laneByte v 1) (laneByte v 2) (laneByte v 3) = v := by
  have h1 := v.isLt
  apply BitVec.eq_of_toNat_eq
  simp only [wordOfBytes, laneByte, BitVec.extractLsb'_toNat, BitVec.toNat_append, Nat.shiftRight_eq_div_pow]
  repeat rw [shiftLeft_or_eq_add _ _ _ (by omega)]
  omega

theorem ctrlOp_toNat (v : Word) : (ctrlOp v).toNat = v.toNat % 4 := by simp [ctrlOp]

theorem ctrlClr_eq (v : Word) : ctrlClr v = decide (v.toNat / 256 % 2 = 1) := by
  simp only [ctrlClr, BitVec.getLsbD, Nat.testBit, Nat.shiftRight_eq_div_pow, Nat.one_and_eq_mod_two, bne]
  rcases Nat.mod_two_eq_zero_or_one (v.toNat / 256) with h | h <;> simp [h]

theorem ctrlOp_cases (v : Word) : ctrlOp v = 0#2 ∨ ctrlOp v = 1#2 ∨ ctrlOp v = 2#2 ∨ ctrlOp v = 3#2 := by
  generalize ctrlOp v = o; revert o; decide

theorem lenField_eq (v : Word) : lenField v = BitVec.ofNat 24 v.toNat := by simp [lenField, BitVec.extractLsb']

theorem ieField_eq (v : Word) : ieField v = decide (v.toNat % 2 = 1) := by
  simp [ieField, BitVec.getLsbD, Nat.testBit_zero]

end Sys2Proof.Machine

namespace Sys2Proof

open Sys2Proof.Machine

theorem decodeBus_congr {p q : Params} (hw : p.w = q.w) (we : Bool) (a : Addr) (d : Word) :
    decodeBus p we a d = decodeBus q we a d := by
  cases p; cases q; cases hw; rfl

/-! ### Frames -/

/-- The fields of a transaction's bits, and that they fit the format. -/
theorem frame_fields (p : Params) (we : Bool) (a : Addr) (v : Word) (ha : a.toNat < 2 ^ (p.w + 2)) (w : Nat)
    (hw : w = (if we then 2 ^ (addrBits p + 32) else 0) + a.toNat * 2 ^ 32 + v.toNat) :
    frameWe p w = we ∧ frameAddr p w = a ∧ frameData w = v ∧ w < 2 ^ busFrameBits p := by
  have hv := v.isLt
  have e1 : 2 ^ (addrBits p + 32) = 2 ^ (p.w + 2) * 2 ^ 32 := by rw [addrBits, Nat.pow_add]
  have e2 : 2 ^ (busFrameBits p) = 2 ^ (p.w + 2) * 2 ^ 32 * 2 := by
    rw [show busFrameBits p = (p.w + 2) + 33 from rfl, Nat.pow_add _ (p.w + 2)]; omega
  have hdiv : w / 2 ^ 32 = (if we then 2 ^ (p.w + 2) else 0) + a.toNat := by
    rw [hw, e1]; cases we <;> simp <;> omega
  refine ⟨?_, ?_, ?_, ?_⟩
  · have : w / 2 ^ (addrBits p + 32) = we.toNat := by
      rw [e1, Nat.mul_comm, ← Nat.div_div_eq_div_mul, hdiv]
      cases we
      · simp; exact ha
      · simp [Nat.div_eq_of_lt ha]
    simp only [frameWe, Nat.testBit, Nat.shiftRight_eq_div_pow, this]; cases we <;> rfl
  · simp only [frameAddr, hdiv, addrBits]
    have : ((if we then 2 ^ (p.w + 2) else 0) + a.toNat) % 2 ^ (p.w + 2) = a.toNat := by
      cases we <;> simp [Nat.mod_eq_of_lt ha]
    rw [this]; simp
  · apply BitVec.eq_of_toNat_eq
    simp only [frameData, BitVec.toNat_ofNat, hw, e1]
    cases we <;> simp <;> omega
  · rw [e2, hw, e1]
    have h1 : a.toNat + 1 ≤ 2 ^ (p.w + 2) := ha
    have := Nat.mul_le_mul_right (2 ^ 32) h1
    cases we <;> simp <;> omega

/-- The decoder on the bits of a transaction. -/
theorem decodeFrame_transaction (p : Params) (we : Bool) (a : Addr) (v : Word) (ha : a.toNat < 2 ^ (p.w + 2)) :
    decodeFrame p (busFrameBits p) ((if we then 2 ^ (addrBits p + 32) else 0) + a.toNat * 2 ^ 32 + v.toNat) =
      .ok (decodeBus p we a v) := by
  obtain ⟨h1, h2, h3, h4⟩ := frame_fields p we a v ha _ rfl
  have : busFrameBits p ≠ 32 := by simp [busFrameBits, addrBits]
  simp only [decodeFrame, this, if_false, true_or, if_true, h4]
  rw [h1, h2, h3]

end Sys2Proof
end

