-- ==== Sys2Proof/Laws/State.lean ====
section
/-! SUPPORT. One lemma per field per update: what each shared operation leaves in each field of State. -/

namespace Sys2Proof.Machine

/-! ### respondRead -/

@[simp] theorem respondRead_cfg (v : Word) (s : State) : (respondRead v s).cfg = s.cfg := rfl
@[simp] theorem respondRead_inBuf (v : Word) (s : State) : (respondRead v s).inBuf = s.inBuf := rfl
@[simp] theorem respondRead_outStore (v : Word) (s : State) : (respondRead v s).outStore = s.outStore := rfl
@[simp] theorem respondRead_status (v : Word) (s : State) : (respondRead v s).status = s.status := rfl
@[simp] theorem respondRead_inLen (v : Word) (s : State) : (respondRead v s).inLen = s.inLen := rfl
@[simp] theorem respondRead_outLen (v : Word) (s : State) : (respondRead v s).outLen = s.outLen := rfl
@[simp] theorem respondRead_ie (v : Word) (s : State) : (respondRead v s).ie = s.ie := rfl
@[simp] theorem respondRead_eng (v : Word) (s : State) : (respondRead v s).eng = s.eng := rfl
@[simp] theorem respondRead_busRdata (v : Word) (s : State) : (respondRead v s).busRdata = v := rfl
@[simp] theorem respondRead_busErr (v : Word) (s : State) : (respondRead v s).busErr = false := rfl
@[simp] theorem respondRead_input (v : Word) (s : State) : (respondRead v s).input = s.input := rfl
@[simp] theorem respondRead_outDraws (v : Word) (s : State) : (respondRead v s).outDraws = s.outDraws := rfl
@[simp] theorem respondRead_rdataDraws (v : Word) (s : State) : (respondRead v s).rdataDraws = s.rdataDraws := rfl

/-! ### respondWrite -/

@[simp] theorem respondWrite_cfg (s : State) : (respondWrite s).cfg = s.cfg := rfl
@[simp] theorem respondWrite_inBuf (s : State) : (respondWrite s).inBuf = s.inBuf := rfl
@[simp] theorem respondWrite_outStore (s : State) : (respondWrite s).outStore = s.outStore := rfl
@[simp] theorem respondWrite_status (s : State) : (respondWrite s).status = s.status := rfl
@[simp] theorem respondWrite_inLen (s : State) : (respondWrite s).inLen = s.inLen := rfl
@[simp] theorem respondWrite_outLen (s : State) : (respondWrite s).outLen = s.outLen := rfl
@[simp] theorem respondWrite_ie (s : State) : (respondWrite s).ie = s.ie := rfl
@[simp] theorem respondWrite_eng (s : State) : (respondWrite s).eng = s.eng := rfl
@[simp] theorem respondWrite_busRdata (s : State) : (respondWrite s).busRdata = Config.writeRdata s.rdataDraws := rfl
@[simp] theorem respondWrite_busErr (s : State) : (respondWrite s).busErr = false := rfl
@[simp] theorem respondWrite_input (s : State) : (respondWrite s).input = s.input := rfl
@[simp] theorem respondWrite_outDraws (s : State) : (respondWrite s).outDraws = s.outDraws := rfl
@[simp] theorem respondWrite_rdataDraws (s : State) : (respondWrite s).rdataDraws = s.rdataDraws + 1 := rfl

/-! ### respondError -/

@[simp] theorem respondError_cfg (s : State) : (respondError s).cfg = s.cfg := rfl
@[simp] theorem respondError_inBuf (s : State) : (respondError s).inBuf = s.inBuf := rfl
@[simp] theorem respondError_outStore (s : State) : (respondError s).outStore = s.outStore := rfl
@[simp] theorem respondError_status (s : State) : (respondError s).status = s.status := rfl
@[simp] theorem respondError_inLen (s : State) : (respondError s).inLen = s.inLen := rfl
@[simp] theorem respondError_outLen (s : State) : (respondError s).outLen = s.outLen := rfl
@[simp] theorem respondError_ie (s : State) : (respondError s).ie = s.ie := rfl
@[simp] theorem respondError_eng (s : State) : (respondError s).eng = s.eng := rfl
@[simp] theorem respondError_busRdata (s : State) : (respondError s).busRdata = 0 := rfl
@[simp] theorem respondError_busErr (s : State) : (respondError s).busErr = true := rfl
@[simp] theorem respondError_input (s : State) : (respondError s).input = s.input := rfl
@[simp] theorem respondError_outDraws (s : State) : (respondError s).outDraws = s.outDraws := rfl
@[simp] theorem respondError_rdataDraws (s : State) : (respondError s).rdataDraws = s.rdataDraws := rfl

/-! ### respondNothing -/

@[simp] theorem respondNothing_cfg (s : State) : (respondNothing s).cfg = s.cfg := rfl
@[simp] theorem respondNothing_inBuf (s : State) : (respondNothing s).inBuf = s.inBuf := rfl
@[simp] theorem respondNothing_outStore (s : State) : (respondNothing s).outStore = s.outStore := rfl
@[simp] theorem respondNothing_status (s : State) : (respondNothing s).status = s.status := rfl
@[simp] theorem respondNothing_inLen (s : State) : (respondNothing s).inLen = s.inLen := rfl
@[simp] theorem respondNothing_outLen (s : State) : (respondNothing s).outLen = s.outLen := rfl
@[simp] theorem respondNothing_ie (s : State) : (respondNothing s).ie = s.ie := rfl
@[simp] theorem respondNothing_eng (s : State) : (respondNothing s).eng = s.eng := rfl
@[simp] theorem respondNothing_busRdata (s : State) : (respondNothing s).busRdata = 0 := rfl
@[simp] theorem respondNothing_busErr (s : State) : (respondNothing s).busErr = false := rfl
@[simp] theorem respondNothing_input (s : State) : (respondNothing s).input = s.input := rfl
@[simp] theorem respondNothing_outDraws (s : State) : (respondNothing s).outDraws = s.outDraws := rfl
@[simp] theorem respondNothing_rdataDraws (s : State) : (respondNothing s).rdataDraws = s.rdataDraws := rfl

/-! ### resetEdge -/

@[simp] theorem resetEdge_cfg (s : State) : (resetEdge s).cfg = s.cfg := rfl
@[simp] theorem resetEdge_inBuf (s : State) : (resetEdge s).inBuf = s.inBuf := rfl
@[simp] theorem resetEdge_outStore (s : State) : (resetEdge s).outStore = [] := rfl
@[simp] theorem resetEdge_status (s : State) : (resetEdge s).status = Status.reset := rfl
@[simp] theorem resetEdge_inLen (s : State) : (resetEdge s).inLen = 0 := rfl
@[simp] theorem resetEdge_outLen (s : State) : (resetEdge s).outLen = 0 := rfl
@[simp] theorem resetEdge_ie (s : State) : (resetEdge s).ie = false := rfl
@[simp] theorem resetEdge_eng (s : State) : (resetEdge s).eng = .idle := rfl
@[simp] theorem resetEdge_busRdata (s : State) : (resetEdge s).busRdata = 0 := rfl
@[simp] theorem resetEdge_busErr (s : State) : (resetEdge s).busErr = false := rfl
@[simp] theorem resetEdge_input (s : State) : (resetEdge s).input = s.input := rfl
@[simp] theorem resetEdge_outDraws (s : State) : (resetEdge s).outDraws = s.outDraws + 1 := rfl
@[simp] theorem resetEdge_rdataDraws (s : State) : (resetEdge s).rdataDraws = s.rdataDraws := rfl

/-! ### dropWrite -/

@[simp] theorem dropWrite_cfg (s : State) : (dropWrite s).cfg = s.cfg := rfl
@[simp] theorem dropWrite_inBuf (s : State) : (dropWrite s).inBuf = s.inBuf := rfl
@[simp] theorem dropWrite_outStore (s : State) : (dropWrite s).outStore = s.outStore := rfl
@[simp] theorem dropWrite_status (s : State) : (dropWrite s).status = statusDropped s.status := rfl
@[simp] theorem dropWrite_inLen (s : State) : (dropWrite s).inLen = s.inLen := rfl
@[simp] theorem dropWrite_outLen (s : State) : (dropWrite s).outLen = s.outLen := rfl
@[simp] theorem dropWrite_ie (s : State) : (dropWrite s).ie = s.ie := rfl
@[simp] theorem dropWrite_eng (s : State) : (dropWrite s).eng = s.eng := rfl
@[simp] theorem dropWrite_busRdata (s : State) : (dropWrite s).busRdata = s.busRdata := rfl
@[simp] theorem dropWrite_busErr (s : State) : (dropWrite s).busErr = s.busErr := rfl
@[simp] theorem dropWrite_input (s : State) : (dropWrite s).input = s.input := rfl
@[simp] theorem dropWrite_outDraws (s : State) : (dropWrite s).outDraws = s.outDraws := rfl
@[simp] theorem dropWrite_rdataDraws (s : State) : (dropWrite s).rdataDraws = s.rdataDraws := rfl

/-! ### clearStatus -/

@[simp] theorem clearStatus_cfg (s : State) : (clearStatus s).cfg = s.cfg := rfl
@[simp] theorem clearStatus_inBuf (s : State) : (clearStatus s).inBuf = s.inBuf := rfl
@[simp] theorem clearStatus_outStore (s : State) : (clearStatus s).outStore = s.outStore := rfl
@[simp] theorem clearStatus_status (s : State) : (clearStatus s).status = statusCleared s.status := rfl
@[simp] theorem clearStatus_inLen (s : State) : (clearStatus s).inLen = s.inLen := rfl
@[simp] theorem clearStatus_outLen (s : State) : (clearStatus s).outLen = s.outLen := rfl
@[simp] theorem clearStatus_ie (s : State) : (clearStatus s).ie = s.ie := rfl
@[simp] theorem clearStatus_eng (s : State) : (clearStatus s).eng = s.eng := rfl
@[simp] theorem clearStatus_busRdata (s : State) : (clearStatus s).busRdata = s.busRdata := rfl
@[simp] theorem clearStatus_busErr (s : State) : (clearStatus s).busErr = s.busErr := rfl
@[simp] theorem clearStatus_input (s : State) : (clearStatus s).input = s.input := rfl
@[simp] theorem clearStatus_outDraws (s : State) : (clearStatus s).outDraws = s.outDraws := rfl
@[simp] theorem clearStatus_rdataDraws (s : State) : (clearStatus s).rdataDraws = s.rdataDraws := rfl

/-! ### acceptStart -/

@[simp] theorem acceptStart_cfg (op : CodecOp) (s : State) : (acceptStart op s).cfg = s.cfg := rfl
@[simp] theorem acceptStart_inBuf (op : CodecOp) (s : State) : (acceptStart op s).inBuf = s.inBuf := rfl
@[simp] theorem acceptStart_outStore (op : CodecOp) (s : State) : (acceptStart op s).outStore = s.outStore := rfl
@[simp] theorem acceptStart_status (op : CodecOp) (s : State) : (acceptStart op s).status = statusStarted s.status := rfl
@[simp] theorem acceptStart_inLen (op : CodecOp) (s : State) : (acceptStart op s).inLen = s.inLen := rfl
@[simp] theorem acceptStart_outLen (op : CodecOp) (s : State) : (acceptStart op s).outLen = 0 := rfl
@[simp] theorem acceptStart_ie (op : CodecOp) (s : State) : (acceptStart op s).ie = s.ie := rfl
@[simp] theorem acceptStart_eng (op : CodecOp) (s : State) : (acceptStart op s).eng = .run op s.inLen := rfl
@[simp] theorem acceptStart_busRdata (op : CodecOp) (s : State) : (acceptStart op s).busRdata = s.busRdata := rfl
@[simp] theorem acceptStart_busErr (op : CodecOp) (s : State) : (acceptStart op s).busErr = s.busErr := rfl
@[simp] theorem acceptStart_input (op : CodecOp) (s : State) : (acceptStart op s).input = s.input := rfl
@[simp] theorem acceptStart_outDraws (op : CodecOp) (s : State) : (acceptStart op s).outDraws = s.outDraws := rfl
@[simp] theorem acceptStart_rdataDraws (op : CodecOp) (s : State) : (acceptStart op s).rdataDraws = s.rdataDraws := rfl

/-! ### refuseLenOver -/

@[simp] theorem refuseLenOver_cfg (s : State) : (refuseLenOver s).cfg = s.cfg := rfl
@[simp] theorem refuseLenOver_inBuf (s : State) : (refuseLenOver s).inBuf = s.inBuf := rfl
@[simp] theorem refuseLenOver_outStore (s : State) : (refuseLenOver s).outStore = s.outStore := rfl
@[simp] theorem refuseLenOver_status (s : State) : (refuseLenOver s).status = statusRefused codeLenOver s.status := rfl
@[simp] theorem refuseLenOver_inLen (s : State) : (refuseLenOver s).inLen = s.inLen := rfl
@[simp] theorem refuseLenOver_outLen (s : State) : (refuseLenOver s).outLen = 0 := rfl
@[simp] theorem refuseLenOver_ie (s : State) : (refuseLenOver s).ie = s.ie := rfl
@[simp] theorem refuseLenOver_eng (s : State) : (refuseLenOver s).eng = s.eng := rfl
@[simp] theorem refuseLenOver_busRdata (s : State) : (refuseLenOver s).busRdata = s.busRdata := rfl
@[simp] theorem refuseLenOver_busErr (s : State) : (refuseLenOver s).busErr = s.busErr := rfl
@[simp] theorem refuseLenOver_input (s : State) : (refuseLenOver s).input = s.input := rfl
@[simp] theorem refuseLenOver_outDraws (s : State) : (refuseLenOver s).outDraws = s.outDraws := rfl
@[simp] theorem refuseLenOver_rdataDraws (s : State) : (refuseLenOver s).rdataDraws = s.rdataDraws := rfl

/-! ### refuseBadCmd -/

@[simp] theorem refuseBadCmd_cfg (s : State) : (refuseBadCmd s).cfg = s.cfg := rfl
@[simp] theorem refuseBadCmd_inBuf (s : State) : (refuseBadCmd s).inBuf = s.inBuf := rfl
@[simp] theorem refuseBadCmd_outStore (s : State) : (refuseBadCmd s).outStore = s.outStore := rfl
@[simp] theorem refuseBadCmd_status (s : State) : (refuseBadCmd s).status = statusRefused codeBadCmd s.status := rfl
@[simp] theorem refuseBadCmd_inLen (s : State) : (refuseBadCmd s).inLen = s.inLen := rfl
@[simp] theorem refuseBadCmd_outLen (s : State) : (refuseBadCmd s).outLen = 0 := rfl
@[simp] theorem refuseBadCmd_ie (s : State) : (refuseBadCmd s).ie = s.ie := rfl
@[simp] theorem refuseBadCmd_eng (s : State) : (refuseBadCmd s).eng = s.eng := rfl
@[simp] theorem refuseBadCmd_busRdata (s : State) : (refuseBadCmd s).busRdata = s.busRdata := rfl
@[simp] theorem refuseBadCmd_busErr (s : State) : (refuseBadCmd s).busErr = s.busErr := rfl
@[simp] theorem refuseBadCmd_input (s : State) : (refuseBadCmd s).input = s.input := rfl
@[simp] theorem refuseBadCmd_outDraws (s : State) : (refuseBadCmd s).outDraws = s.outDraws := rfl
@[simp] theorem refuseBadCmd_rdataDraws (s : State) : (refuseBadCmd s).rdataDraws = s.rdataDraws := rfl

/-! ### irqEnEffect -/

@[simp] theorem irqEnEffect_cfg (v : Word) (s : State) : (irqEnEffect v s).cfg = s.cfg := rfl
@[simp] theorem irqEnEffect_inBuf (v : Word) (s : State) : (irqEnEffect v s).inBuf = s.inBuf := rfl
@[simp] theorem irqEnEffect_outStore (v : Word) (s : State) : (irqEnEffect v s).outStore = s.outStore := rfl
@[simp] theorem irqEnEffect_status (v : Word) (s : State) : (irqEnEffect v s).status = s.status := rfl
@[simp] theorem irqEnEffect_inLen (v : Word) (s : State) : (irqEnEffect v s).inLen = s.inLen := rfl
@[simp] theorem irqEnEffect_outLen (v : Word) (s : State) : (irqEnEffect v s).outLen = s.outLen := rfl
@[simp] theorem irqEnEffect_ie (v : Word) (s : State) : (irqEnEffect v s).ie = ieField v := rfl
@[simp] theorem irqEnEffect_eng (v : Word) (s : State) : (irqEnEffect v s).eng = s.eng := rfl
@[simp] theorem irqEnEffect_busRdata (v : Word) (s : State) : (irqEnEffect v s).busRdata = s.busRdata := rfl
@[simp] theorem irqEnEffect_busErr (v : Word) (s : State) : (irqEnEffect v s).busErr = s.busErr := rfl
@[simp] theorem irqEnEffect_input (v : Word) (s : State) : (irqEnEffect v s).input = s.input := rfl
@[simp] theorem irqEnEffect_outDraws (v : Word) (s : State) : (irqEnEffect v s).outDraws = s.outDraws := rfl
@[simp] theorem irqEnEffect_rdataDraws (v : Word) (s : State) : (irqEnEffect v s).rdataDraws = s.rdataDraws := rfl

/-! ### completeOk -/

@[simp] theorem completeOk_cfg (out : List Byte) (s : State) : (completeOk out s).cfg = s.cfg := rfl
@[simp] theorem completeOk_inBuf (out : List Byte) (s : State) : (completeOk out s).inBuf = s.inBuf := rfl
@[simp] theorem completeOk_outStore (out : List Byte) (s : State) : (completeOk out s).outStore = s.outStore.writeAll 0 out := rfl
@[simp] theorem completeOk_status (out : List Byte) (s : State) : (completeOk out s).status = statusDone s.status := rfl
@[simp] theorem completeOk_inLen (out : List Byte) (s : State) : (completeOk out s).inLen = s.inLen := rfl
@[simp] theorem completeOk_outLen (out : List Byte) (s : State) : (completeOk out s).outLen = BitVec.ofNat 24 out.length := rfl
@[simp] theorem completeOk_ie (out : List Byte) (s : State) : (completeOk out s).ie = s.ie := rfl
@[simp] theorem completeOk_eng (out : List Byte) (s : State) : (completeOk out s).eng = .idle := rfl
@[simp] theorem completeOk_busRdata (out : List Byte) (s : State) : (completeOk out s).busRdata = s.busRdata := rfl
@[simp] theorem completeOk_busErr (out : List Byte) (s : State) : (completeOk out s).busErr = s.busErr := rfl
@[simp] theorem completeOk_input (out : List Byte) (s : State) : (completeOk out s).input = s.input := rfl
@[simp] theorem completeOk_outDraws (out : List Byte) (s : State) : (completeOk out s).outDraws = s.outDraws := rfl
@[simp] theorem completeOk_rdataDraws (out : List Byte) (s : State) : (completeOk out s).rdataDraws = s.rdataDraws := rfl

/-! ### completeErr -/

@[simp] theorem completeErr_cfg (k : ErrKind) (b : Byte) (s : State) : (completeErr k b s).cfg = s.cfg := rfl
@[simp] theorem completeErr_inBuf (k : ErrKind) (b : Byte) (s : State) : (completeErr k b s).inBuf = s.inBuf := rfl
@[simp] theorem completeErr_outStore (k : ErrKind) (b : Byte) (s : State) : (completeErr k b s).outStore = [] := rfl
@[simp] theorem completeErr_status (k : ErrKind) (b : Byte) (s : State) : (completeErr k b s).status = statusFailed k b s.status := rfl
@[simp] theorem completeErr_inLen (k : ErrKind) (b : Byte) (s : State) : (completeErr k b s).inLen = s.inLen := rfl
@[simp] theorem completeErr_outLen (k : ErrKind) (b : Byte) (s : State) : (completeErr k b s).outLen = 0 := rfl
@[simp] theorem completeErr_ie (k : ErrKind) (b : Byte) (s : State) : (completeErr k b s).ie = s.ie := rfl
@[simp] theorem completeErr_eng (k : ErrKind) (b : Byte) (s : State) : (completeErr k b s).eng = .idle := rfl
@[simp] theorem completeErr_busRdata (k : ErrKind) (b : Byte) (s : State) : (completeErr k b s).busRdata = s.busRdata := rfl
@[simp] theorem completeErr_busErr (k : ErrKind) (b : Byte) (s : State) : (completeErr k b s).busErr = s.busErr := rfl
@[simp] theorem completeErr_input (k : ErrKind) (b : Byte) (s : State) : (completeErr k b s).input = s.input := rfl
@[simp] theorem completeErr_outDraws (k : ErrKind) (b : Byte) (s : State) : (completeErr k b s).outDraws = s.outDraws + 1 := rfl
@[simp] theorem completeErr_rdataDraws (k : ErrKind) (b : Byte) (s : State) : (completeErr k b s).rdataDraws = s.rdataDraws := rfl

/-! ### takeInput -/

@[simp] theorem takeInput_cfg (s : State) : (takeInput s).cfg = s.cfg := rfl
@[simp] theorem takeInput_inBuf (s : State) : (takeInput s).inBuf = s.inBuf := rfl
@[simp] theorem takeInput_outStore (s : State) : (takeInput s).outStore = s.outStore := rfl
@[simp] theorem takeInput_status (s : State) : (takeInput s).status = s.status := rfl
@[simp] theorem takeInput_inLen (s : State) : (takeInput s).inLen = s.inLen := rfl
@[simp] theorem takeInput_outLen (s : State) : (takeInput s).outLen = s.outLen := rfl
@[simp] theorem takeInput_ie (s : State) : (takeInput s).ie = s.ie := rfl
@[simp] theorem takeInput_eng (s : State) : (takeInput s).eng = s.eng := rfl
@[simp] theorem takeInput_busRdata (s : State) : (takeInput s).busRdata = s.busRdata := rfl
@[simp] theorem takeInput_busErr (s : State) : (takeInput s).busErr = s.busErr := rfl
@[simp] theorem takeInput_input (s : State) : (takeInput s).input = s.input.tail := rfl
@[simp] theorem takeInput_outDraws (s : State) : (takeInput s).outDraws = s.outDraws := rfl
@[simp] theorem takeInput_rdataDraws (s : State) : (takeInput s).rdataDraws = s.rdataDraws := rfl

/-! ### BUSY, `irq` and the buffers' bytes read through the fields they depend on -/

theorem busy_congr {s t : State} (h : s.eng = t.eng) : s.busy = t.busy := by
  simp only [State.busy, h]

theorem irq_congr {s t : State} (hs : s.status.done = t.status.done) (hi : s.ie = t.ie) : s.irq = t.irq := by
  simp only [State.irq, hs, hi]

theorem inBufByte_congr {s t : State} (h : s.inBuf = t.inBuf) (i : Nat) : inBufByte s i = inBufByte t i := by
  simp only [inBufByte, h]

theorem outStoreByte_congr {s t : State} (h : s.outStore = t.outStore) (hd : s.outDraws = t.outDraws) (i : Nat) :
    outStoreByte s i = outStoreByte t i := by
  simp only [outStoreByte, h, hd]

/-- The masked view depends on ENG, OUT_LEN and OutStore only (10_state.md R24). -/
theorem outView_congr {s t : State} (he : s.eng = t.eng) (hl : s.outLen = t.outLen) (hs : s.outStore = t.outStore)
    (hd : s.outDraws = t.outDraws) (i : Nat) : outView s i = outView t i := by
  simp only [outView, busy_congr he, hl, outStoreByte_congr hs hd]

theorem busy_eq_false {s : State} : s.busy = false ↔ s.eng = .idle := by
  cases h : s.eng <;> simp [State.busy, h]

theorem busy_eq_true {s : State} : s.busy = true ↔ ∃ op len, s.eng = .run op len := by
  cases h : s.eng <;> simp [State.busy, h]

end Sys2Proof.Machine
end

