-- ==== Sys2Proof/Laws/Exec.lean ====
section
/-! SUPPORT. What a transaction and a completion can do: one lemma says everything each can change. -/

namespace Sys2Proof.Machine

/-- The bus response of a taken write. -/
theorem takenWrite_respondWrite (u : State) : TakenWrite (.next (respondWrite u)) u := ⟨_, _, rfl⟩

theorem unlessBusy_of_busy {s : State} (h : s.busy = true) (f : State → State) : unlessBusy f s = dropWrite s := by
  simp [unlessBusy, h]

theorem unlessBusy_of_idle {s : State} (h : s.busy = false) (f : State → State) : unlessBusy f s = f s := by
  simp [unlessBusy, h]

/-- Every instruction has a next state. -/
theorem exec_next (i : Instr) (s : State) : ∃ t, exec i s = .next t := by cases i <;> exact ⟨_, rfl⟩

/-- A read sees nothing but what the host can observe. -/
theorem readWord_congr {s t : State} (h0 : s.cfg.w = t.cfg.w) (h1 : s.eng = t.eng) (h2 : s.status = t.status)
    (h3 : s.inLen = t.inLen) (h4 : s.outLen = t.outLen) (h5 : s.ie = t.ie) (h6 : s.inBuf = t.inBuf)
    (h7 : ∀ i, outView s i = outView t i) (a : Addr) : readWord s a = readWord t a := by
  have hv : outView s = outView t := funext h7
  have hi : inBufByte s = inBufByte t := funext (inBufByte_congr h6)
  simp only [readWord, readRegister, busy_congr h1, window_congr h0, offset_congr h0, h2, h3, h4, h5, hv, hi]

/-- What `OP` can do to a state (43_host_commands.md R208). -/
theorem opEffect_cases (op : BitVec 2) (s : State) :
    opEffect op s = s ∨ (∃ o, s.inLen.toNat ≤ s.cfg.inCap ∧ opEffect op s = acceptStart o s) ∨
      opEffect op s = refuseLenOver s ∨ opEffect op s = refuseBadCmd s := by
  simp only [opEffect, start]
  split
  · exact .inl rfl
  · split
    · split
      · exact .inr (.inr (.inl rfl))
      · exact .inr (.inl ⟨_, by omega, rfl⟩)
    · split
      · split
        · exact .inr (.inr (.inl rfl))
        · exact .inr (.inl ⟨_, by omega, rfl⟩)
      · exact .inr (.inr (.inr rfl))

/-- Everything a transaction can do to a state. -/
inductive Effect (s : State) : State → Prop
  | busError : Effect s (respondError s)
  | read (v : Word) : Effect s (respondRead v s)
  | ignored : Effect s (respondWrite s)
  | dropped : s.busy = true → Effect s (respondWrite (dropWrite s))
  | irqEn (v : Word) : Effect s (respondWrite (irqEnEffect v s))
  | inLen (v : Word) : s.busy = false → Effect s (respondWrite { s with inLen := lenField v })
  | inBuf (off : Nat) (l : List Byte) : s.busy = false → off % 4 = 0 → off < s.cfg.inCap → l.length = 4 →
      Effect s (respondWrite { s with inBuf := s.inBuf.writeAll off l })
  | command (clr : Bool) (op : BitVec 2) : s.busy = false →
      Effect s (respondWrite (opEffect op (if clr then clearStatus s else s)))

theorem effect_ctrl (s : State) (v : Word) : Effect s (respondWrite (ctrlEffect v s)) := by
  simp only [ctrlEffect, unlessBusy]
  cases hb : s.busy
  · exact .command (ctrlClr v) (ctrlOp v) hb
  · exact .dropped hb

theorem effect_inLen (s : State) (v : Word) : Effect s (respondWrite (inLenEffect v s)) := by
  simp only [inLenEffect, unlessBusy]
  cases hb : s.busy
  · exact .inLen v hb
  · exact .dropped hb

theorem effect_inbuf (s : State) (off : Nat) (v : Word) (h1 : off % 4 = 0) (h2 : off < s.cfg.inCap) :
    Effect s (respondWrite (inbufEffect off v s)) := by
  simp only [inbufEffect, unlessBusy]
  cases hb : s.busy
  · exact .inBuf off _ hb h1 h2 rfl
  · exact .dropped hb

theorem effect_command (s : State) (clr : Bool) (op : BitVec 2) :
    Effect s (respondWrite (unlessBusy (fun s => opEffect op (if clr then clearStatus s else s)) s)) := by
  simp only [unlessBusy]
  cases hb : s.busy
  · exact .command clr op hb
  · exact .dropped hb

/-- Every instruction does one of the listed effects. -/
theorem exec_effect {s t : State} (hv : validParams s.cfg = true) (i : Instr) (h : exec i s = .next t) :
    Effect s t := by
  have hp := ValidParams.of hv
  cases i with
  | busRead a =>
    simp only [exec, execBusRead, Host.Outcome.next.injEq] at h; subst h
    split
    · exact .busError
    · exact .read _
  | busWrite a v =>
    simp only [exec, execBusWrite, Host.Outcome.next.injEq] at h; subst h
    split
    · exact .busError
    · rename_i hb
      rw [busError_iff] at hb
      simp only [writeEffect]
      split
      · split
        · exact effect_ctrl s v
        · split
          · exact effect_inLen s v
          · split
            · exact .irqEn v
            · exact .ignored
      · split
        · have h4 := hp.offset_mod_four a.toNat
          exact effect_inbuf s _ v (by simp only [offset]; omega) (by omega)
        · exact .ignored
  | ctrlWrite v => simp only [exec, execCtrlWrite, Host.Outcome.next.injEq] at h; subst h; exact effect_ctrl s v
  | inLenWrite v => simp only [exec, execInLenWrite, Host.Outcome.next.injEq] at h; subst h; exact effect_inLen s v
  | irqEnWrite v => simp only [exec, execIrqEnWrite, Host.Outcome.next.injEq] at h; subst h; exact .irqEn v
  | inbufWrite off v =>
    simp only [exec, execInbufWrite, Host.Outcome.next.injEq] at h; subst h
    split
    · exact .busError
    · rename_i hb
      rw [hp.busError_inWindow] at hb
      simp at hb
      have h4 := hp.offset_mod_four off.toNat
      exact effect_inbuf s _ v (by simp only [offset]; omega) (by simp only [offset]; omega)
  | cmdNone => simp only [exec, execCmdNone, Host.Outcome.next.injEq] at h; subst h; exact effect_command s false 0
  | cmdEncode =>
    simp only [exec, execCmdEncode, Host.Outcome.next.injEq] at h; subst h; exact effect_command s false 1
  | cmdDecode =>
    simp only [exec, execCmdDecode, Host.Outcome.next.injEq] at h; subst h; exact effect_command s false 2
  | cmdRsvd => simp only [exec, execCmdRsvd, Host.Outcome.next.injEq] at h; subst h; exact effect_command s false 3
  | clr op => simp only [exec, execClr, Host.Outcome.next.injEq] at h; subst h; exact effect_command s true op

/-- No transaction changes what a running command works on or produces. -/
theorem exec_while_busy {s t : State} (i : Instr) (hb : s.busy = true) (h : exec i s = .next t) :
    t.eng = s.eng ∧ t.inBuf = s.inBuf ∧ t.inLen = s.inLen ∧ t.outLen = s.outLen ∧ t.outStore = s.outStore ∧
      t.status.done = s.status.done := by
  have hu : ∀ f, unlessBusy f s = dropWrite s := unlessBusy_of_busy hb
  cases i <;> simp only [exec, execBusRead, execBusWrite, execCtrlWrite, ctrlEffect, execInLenWrite, inLenEffect,
    execIrqEnWrite, execInbufWrite, inbufEffect, execCmdNone, execCmdEncode, execCmdDecode, execCmdRsvd, execClr, hu,
    Host.Outcome.next.injEq, writeEffect] at h <;> subst h
  all_goals (repeat' split) <;> exact ⟨rfl, rfl, rfl, rfl, rfl, rfl⟩

theorem opEffect_keeps (op : BitVec 2) (s : State) :
    (opEffect op s).input = s.input ∧ (opEffect op s).cfg = s.cfg ∧ (opEffect op s).outStore = s.outStore ∧
      (opEffect op s).outDraws = s.outDraws ∧ (opEffect op s).inBuf = s.inBuf := by
  rcases opEffect_cases op s with e | ⟨_, _, e⟩ | e | e <;> rw [e] <;> exact ⟨rfl, rfl, rfl, rfl, rfl⟩

/-- No transaction changes the schedule, the configuration or the output store. -/
theorem Effect.keeps {s t : State} (h : Effect s t) :
    t.input = s.input ∧ t.cfg = s.cfg ∧ t.outStore = s.outStore ∧ t.outDraws = s.outDraws := by
  cases h with
  | command clr op hb =>
    have := opEffect_keeps op (if clr = true then clearStatus s else s)
    cases clr <;> exact ⟨this.1, this.2.1, this.2.2.1, this.2.2.2.1⟩
  | _ => exact ⟨rfl, rfl, rfl, rfl⟩

/-! ### Completion -/

theorem message_length (s : State) (n : Nat) : (message s n).length = n := by simp [message]

theorem message_congr {s t : State} (h : s.inBuf = t.inBuf) (n : Nat) : message s n = message t n := by
  simp only [message]; exact List.map_congr_left fun i _ => inBufByte_congr h i

theorem read?_writeAll_zero (m : Memory) (out : List Byte) (i : Nat) (h : i < out.length) :
    (m.writeAll 0 out).read? i = out[i]? := by
  rw [Memory.read?_writeAll, if_pos (by omega)]; rfl

/-- The output view after a completion with a result. -/
theorem outView_completeOk (out : List Byte) (s : State) (i : Nat) :
    outView (completeOk out s) i = if i < (BitVec.ofNat 24 out.length).toNat then out.getD i 0 else 0 := by
  have hb : (completeOk out s).busy = false := rfl
  have hl : (completeOk out s).outLen = BitVec.ofNat 24 out.length := rfl
  unfold outView
  rw [hl]
  by_cases hi : i < (BitVec.ofNat 24 out.length).toNat
  · have hlt : i < out.length := by
      rw [BitVec.toNat_ofNat] at hi; exact Nat.lt_of_lt_of_le hi (Nat.mod_le _ _)
    rw [if_pos ⟨hb, hi⟩, if_pos hi]
    simp only [outStoreByte, completeOk_outStore]
    rw [read?_writeAll_zero _ _ _ hlt]; simp [hlt]
  · rw [if_neg (fun h => hi h.2), if_neg hi]

/-- The output view after a completion with an error. -/
theorem outView_completeErr (k : ErrKind) (b : Byte) (s : State) (i : Nat) : outView (completeErr k b s) i = 0 := by
  simp [outView]

/-- What the engine's step leaves of a running state. -/
theorem complete_frame {s : State} (h : s.busy = true) :
    (complete s).busy = false ∧ (complete s).status.done = true ∧ (complete s).status.werr = s.status.werr ∧
      (complete s).inBuf = s.inBuf ∧ (complete s).inLen = s.inLen ∧ (complete s).cfg = s.cfg ∧
      (complete s).ie = s.ie ∧ (complete s).input = s.input ∧ (complete s).busRdata = s.busRdata ∧
      (complete s).busErr = s.busErr ∧ (complete s).rdataDraws = s.rdataDraws := by
  obtain ⟨op, len, he⟩ := busy_eq_true.mp h
  simp only [complete, he, completeRun]
  cases codec op (message s len.toNat) <;> exact ⟨rfl, rfl, rfl, rfl, rfl, rfl, rfl, rfl, rfl, rfl, rfl⟩

/-! ### Invariant -/

/-- The invariant speaks of seven fields only. -/
theorem Inv.congr {s t : State} (hi : Inv s) (h0 : t.cfg = s.cfg) (h1 : t.inBuf = s.inBuf)
    (h2 : t.outStore = s.outStore) (h3 : t.status = s.status) (h4 : t.inLen = s.inLen) (h5 : t.outLen = s.outLen)
    (h6 : t.eng = s.eng) : Inv t := by
  obtain ⟨a1, a2, a3, a4, a5, a6, a7, a8, a9, a10, a11, a12, a13, a14⟩ := hi
  refine ⟨by rwa [h0], by rwa [h1], by rwa [h0, h1], by rwa [h2], by rwa [h0, h2], by rwa [h6, h4, h0], ?_,
    by rwa [h3], by rwa [h3], by rwa [h3], by rwa [h3], by rwa [h3, h5], by rwa [h5, h0], by rwa [h5, h2]⟩
  rwa [busy_congr h6, h3, h5]

end Sys2Proof.Machine
end

