-- ==== Sys2Proof/Machine/HostProgram.lean ====
section
/-! DEFINITION. The host-program notation (30_encoding.md R100, R101): what the host presents for each
instruction and pseudo-instruction of the notation. Loops and branches are the host's own behaviour (R100). -/

namespace Sys2Proof.Machine

/-- The platform's address of offset `off` of the block: it maps offset 0 to `BASE` (20_memory.md R61, 00_scope.md
R8). -/
def platformAddr (p : Params) (off : Addr) : Nat := p.base + off.toNat

/-- The offset that a platform access to address `a` presents to the block, if `a` lies in the block's `2^AW` bytes
(20_memory.md R61). -/
def platformOffset (p : Params) (a : Nat) : Option Addr :=
  if p.base ≤ a ∧ a < p.base + 2 ^ addrBits p then some (BitVec.ofNat 24 (a - p.base)) else none

/-- `R <loc>`: a read, presented at one edge; `engine` says whether the engine's step falls there. -/
def hostRead (loc : Addr) (engine : Bool) : Pins :=
  { rstN := true, req := true, we := false, addr := loc, wdata := 0, engine := engine }

/-- `W <loc>, <data32>`. -/
def hostWrite (loc : Addr) (v : Word) (engine : Bool) : Pins :=
  { rstN := true, req := true, we := true, addr := loc, wdata := v, engine := engine }

/-- `IN[k]`: offset `2^W + 4k`. -/
def hostIn (p : Params) (k : Nat) : Addr := BitVec.ofNat 24 (2 ^ p.w + 4 * k)

/-- `OUT[k]`: offset `2^W * 2 + 4k`. -/
def hostOut (p : Params) (k : Nat) : Addr := BitVec.ofNat 24 (2 ^ p.w * 2 + 4 * k)

/-- `START_ENC`. -/
def startEnc : List Pins := [hostWrite 0x004 0x00000001 false]

/-- `START_DEC`. -/
def startDec : List Pins := [hostWrite 0x004 0x00000002 false]

/-- `CLEAR`. -/
def clearCmd : List Pins := [hostWrite 0x004 0x00000100 false]

/-- The word writes of `LOAD`, from word `k`: bytes past the message are written 0. -/
def loadWords (p : Params) : Nat → List Byte → List Pins
  | _, [] => []
  | k, [b0] => [hostWrite (hostIn p k) (wordOfBytes b0 0 0 0) false]
  | k, [b0, b1] => [hostWrite (hostIn p k) (wordOfBytes b0 b1 0 0) false]
  | k, [b0, b1, b2] => [hostWrite (hostIn p k) (wordOfBytes b0 b1 b2 0) false]
  | k, b0 :: b1 :: b2 :: b3 :: t =>
    hostWrite (hostIn p k) (wordOfBytes b0 b1 b2 b3) false :: loadWords p (k + 1) t

/-- `LOAD "<bytes>"`: the message's words, then `IN_LEN`. -/
def loadMsg (p : Params) (t : List Byte) : List Pins :=
  loadWords p 0 t ++ [hostWrite 0x00C (BitVec.ofNat 32 t.length) false]

/-- One poll of `WAIT`: `R STATUS`. -/
def waitPoll (engine : Bool) : Pins := hostRead 0x008 engine

/-- Whether `WAIT` loops on the polled word: bit 0 of the read is 1. -/
def waitAgain (rdata : Word) : Bool := rdata.getLsbD 0

/-- The reads of `FETCH` after it has read `outLen` from `OUT_LEN`. -/
def fetchWords (p : Params) (outLen : Nat) : List Pins :=
  (List.range ((outLen + 3) / 4)).map fun k => hostRead (hostOut p k) false

/-- `FETCH`, for a host that knows the length it will read. -/
def fetchMsg (p : Params) (outLen : Nat) : List Pins := hostRead 0x010 false :: fetchWords p outLen

end Sys2Proof.Machine
end

