-- ==== Sys2Proof/Laws/HostProgram.lean ====
section
/-! SUPPORT. The platform's addresses and the block's offsets are inverse, and the alignment of `BASE` makes the offset
the low `AW` bits of the address. -/

namespace Sys2Proof.Machine

theorem platformOffset_platformAddr (p : Params) (off : Addr) (h : off.toNat < 2 ^ (p.w + 2)) :
    platformOffset p (platformAddr p off) = some off := by
  have h' : p.base ≤ p.base + off.toNat ∧ p.base + off.toNat < p.base + 2 ^ addrBits p :=
    ⟨Nat.le_add_right _ _, Nat.add_lt_add_left h _⟩
  simp only [platformOffset, platformAddr, if_pos h', Nat.add_sub_cancel_left, BitVec.ofNat_toNat, BitVec.setWidth_eq]

/-- The platform need not subtract: the block's offset is the address's low `AW` bits. -/
theorem ValidParams.platformOffset_eq {p : Params} (h : ValidParams p) (a : Nat) (off : Addr)
    (ho : platformOffset p a = some off) : off = BitVec.ofNat 24 (a % 2 ^ (p.w + 2)) := by
  simp only [platformOffset] at ho
  split at ho
  · rename_i hr
    cases ho
    obtain ⟨k, rfl⟩ := Nat.exists_eq_add_of_le hr.1
    have hk : k < 2 ^ (p.w + 2) := Nat.lt_of_add_lt_add_left hr.2
    rw [Nat.add_sub_cancel_left, Nat.add_mod, h.baseAligned, Nat.zero_add, Nat.mod_mod, Nat.mod_eq_of_lt hk]
  · cases ho

end Sys2Proof.Machine
end

