-- ==== Sys2Proof/Laws/PerInstr.lean ====
section
/-! SUPPORT. Statements made per instruction: the bits of a well-formed instruction fit the width of its format. -/

namespace Sys2Proof.Laws.EncodeFits

open Sys2Proof Sys2Proof.Machine

/-- In every valid configuration, the encoding of a well-formed `i` has no bit above its width. -/
def Statement (i : Instr) : Prop :=
  ∀ p : Params, validParams p = true → wellFormed p i = true → (encode p i).2 < 2 ^ (encode p i).1

theorem read_fits (p : Params) (a : Addr) (ha : a.toNat < 2 ^ (p.w + 2)) :
    a.toNat * 2 ^ 32 < 2 ^ busFrameBits p :=
  (frame_fields p false a 0 ha _ (by simp)).2.2.2

theorem write_fits (p : Params) (a : Addr) (v : Word) (ha : a.toNat < 2 ^ (p.w + 2)) :
    writeFrame p a.toNat v < 2 ^ busFrameBits p :=
  (frame_fields p true a v ha _ (by simp [writeFrame])).2.2.2

theorem register_fits {p : Params} (h : ValidParams p) (a : Addr) (ha : a.toNat < 32) : a.toNat < 2 ^ (p.w + 2) := by
  have := window_size_low h.wLow
  have := h.space.1
  omega

theorem busRead (addr : Addr) : Statement (.busRead addr) := fun p _ hw =>
  read_fits p addr (by simpa [wellFormed, addrFits] using hw)

theorem busWrite (addr : Addr) (v : Word) : Statement (.busWrite addr v) := fun p _ hw => by
  simp only [wellFormed, addrFits, Bool.and_eq_true, decide_eq_true_eq] at hw
  exact write_fits p addr v hw.1

theorem ctrlWrite (v : Word) : Statement (.ctrlWrite v) := fun p hv _ =>
  write_fits p 0x004 v (register_fits (ValidParams.of hv) _ (by decide))

theorem inLenWrite (v : Word) : Statement (.inLenWrite v) := fun p hv _ =>
  write_fits p 0x00C v (register_fits (ValidParams.of hv) _ (by decide))

theorem irqEnWrite (v : Word) : Statement (.irqEnWrite v) := fun p hv _ =>
  write_fits p 0x014 v (register_fits (ValidParams.of hv) _ (by decide))

theorem inbufWrite (off : Addr) (v : Word) : Statement (.inbufWrite off v) := fun p hv hw => by
  have hp := ValidParams.of hv
  simp only [wellFormed, bufferOffset, Bool.and_eq_true, decide_eq_true_eq] at hw
  have hin := hp.inWindow_toNat off
  rw [Nat.mod_eq_of_lt hw.1] at hin
  have hlt : (inWindow p off).toNat < 2 ^ (p.w + 2) := by have := hp.space.1; omega
  have := write_fits p (inWindow p off) v hlt
  rwa [hin] at this

theorem cmdNone : Statement .cmdNone := fun _ _ _ => by simp [encode, ctrlWord]

theorem cmdEncode : Statement .cmdEncode := fun _ _ _ => by simp [encode, ctrlWord]

theorem cmdDecode : Statement .cmdDecode := fun _ _ _ => by simp [encode, ctrlWord]

theorem cmdRsvd : Statement .cmdRsvd := fun _ _ _ => by simp [encode, ctrlWord]

theorem clr (op : BitVec 2) : Statement (.clr op) := fun _ _ _ => by
  have := op.isLt
  simp only [encode, ctrlWord, Bool.toNat_true]
  omega

end Sys2Proof.Laws.EncodeFits
end

