-- ==== Sys2Proof/Laws/Step.lean ====
section
/-! SUPPORT. What one clock edge can do. -/

namespace Sys2Proof.Machine

theorem nextPins_cons {s : State} {c : Pins} {rest : List Pins} (h : s.input = c :: rest) :
    nextPins s = c ∧ takeInput s = { s with input := rest } := by simp [nextPins, takeInput, h]

theorem nextPins_nil {s : State} (h : s.input = []) : nextPins s = quietPins := by simp [nextPins, h]

theorem busy_takeInput (s : State) : (takeInput s).busy = s.busy := busy_congr rfl

theorem engineEdge_of_idle {s : State} (hb : s.busy = false) (u : State) : engineEdge s u = u := by
  simp [engineEdge, hb]

/-- An edge that presents a transaction. -/
theorem step_transaction {s : State} (h1 : (nextPins s).rstN = true) (h2 : (nextPins s).req = true) :
    step s =
      match exec (decodeBus s.cfg (nextPins s).we (nextPins s).addr (nextPins s).wdata) (takeInput s) with
      | .next t => .next (engineEdge s t)
      | .fault r => .fault r
      | .refused r => .refused r := by
  simp only [step, nextEdge, h1, h2, if_false, Bool.true_eq_false] <;> rfl

/-- An edge that presents nothing. -/
theorem step_quiet {s : State} (h1 : (nextPins s).rstN = true) (h2 : (nextPins s).req = false) :
    step s = .next (engineEdge s (respondNothing (takeInput s))) := by
  simp only [step, nextEdge, h1, h2]; simp

/-- A reset edge. -/
theorem step_reset {s : State} (h1 : (nextPins s).rstN = false) : step s = .next (resetEdge (takeInput s)) := by
  simp only [step, nextEdge, h1]; simp

/-- Everything one edge can do. -/
theorem step_cases {s t : State} (h : step s = .next t) :
    ((nextPins s).rstN = false ∧ t = resetEdge (takeInput s)) ∨
    ((nextPins s).rstN = true ∧ (nextPins s).req = false ∧ t = engineEdge s (respondNothing (takeInput s))) ∨
    ((nextPins s).rstN = true ∧ (nextPins s).req = true ∧
      ∃ u, exec (decodeBus s.cfg (nextPins s).we (nextPins s).addr (nextPins s).wdata) (takeInput s) = .next u ∧
        t = engineEdge s u) := by
  cases h1 : (nextPins s).rstN
  · rw [step_reset h1] at h; cases h; exact .inl ⟨rfl, rfl⟩
  · cases h2 : (nextPins s).req
    · rw [step_quiet h1 h2] at h; cases h; exact .inr (.inl ⟨rfl, rfl, rfl⟩)
    · rw [step_transaction h1 h2] at h
      obtain ⟨u, hu⟩ :=
        exec_next (decodeBus s.cfg (nextPins s).we (nextPins s).addr (nextPins s).wdata) (takeInput s)
      rw [hu] at h; cases h
      exact .inr (.inr ⟨rfl, rfl, u, hu, rfl⟩)

/-- What an edge without reset leaves of a running state before the engine's own step. -/
theorem step_while_busy {s t : State} (hb : s.busy = true) (h : step s = .next t) (hr : (nextPins s).rstN = true) :
    ∃ u : State, t = (if (nextPins s).engine = true then complete u else u) ∧ u.eng = s.eng ∧ u.inBuf = s.inBuf ∧
      u.inLen = s.inLen ∧ u.outLen = s.outLen ∧ u.outStore = s.outStore ∧ u.status.done = s.status.done := by
  rcases step_cases h with ⟨h1, _⟩ | ⟨_, _, ht⟩ | ⟨_, _, u, hu, ht⟩
  · rw [hr] at h1; cases h1
  · exact ⟨respondNothing (takeInput s), by rw [ht]; simp [engineEdge, hb], rfl, rfl, rfl, rfl, rfl, rfl⟩
  · have := exec_while_busy _ ((busy_takeInput s).trans hb) hu
    exact ⟨u, by rw [ht]; simp [engineEdge, hb], this⟩

/-- The only transaction that changes STATUS, OUT_LEN or ENG while idle is a CTRL write. -/
theorem exec_while_idle {s t : State} {we : Bool} {a : Addr} {d : Word} (hb : s.busy = false)
    (h : exec (decodeBus s.cfg we a d) s = .next t) :
    (t.status = s.status ∧ t.outLen = s.outLen ∧ t.eng = s.eng) ∨
      (we = true ∧ portAddr s.cfg a = 0x004 ∧
        t = respondWrite (opEffect (ctrlOp d) (if ctrlClr d then clearStatus s else s))) := by
  unfold decodeBus at h
  cases we
  · simp only [Bool.false_eq_true, if_false, exec, execBusRead, Host.Outcome.next.injEq] at h
    subst h; left; split <;> exact ⟨rfl, rfl, rfl⟩
  · simp only [if_true] at h
    unfold decodeWrite at h
    split_ifs at h with h1 h2 h3 h4
    · right; refine ⟨rfl, h1, ?_⟩
      simp only [exec, execCtrlWrite, ctrlEffect, unlessBusy, hb, Host.Outcome.next.injEq] at h
      exact h.symm
    · left; simp only [exec, execInLenWrite, inLenEffect, unlessBusy, hb, Host.Outcome.next.injEq] at h
      subst h; exact ⟨rfl, rfl, rfl⟩
    · left; simp only [exec, execIrqEnWrite, Host.Outcome.next.injEq] at h
      subst h; exact ⟨rfl, rfl, rfl⟩
    · left; simp only [exec, execInbufWrite, inbufEffect, unlessBusy, hb, Host.Outcome.next.injEq] at h
      subst h; split <;> exact ⟨rfl, rfl, rfl⟩
    · left; simp only [exec, execBusWrite, writeEffect, Host.Outcome.next.injEq] at h
      subst h
      split
      · exact ⟨rfl, rfl, rfl⟩
      · split
        · split
          · rename_i hw ho
            exfalso; apply h1
            have hs := addr_split (portAddr s.cfg a) (portAddr_lt s.cfg a)
            apply BitVec.eq_of_toNat_eq
            rw [hw, ho] at hs
            simpa using hs.1
          · split
            · simp only [inLenEffect, unlessBusy, hb]; exact ⟨rfl, rfl, rfl⟩
            · split <;> exact ⟨rfl, rfl, rfl⟩
        · split
          · simp only [inbufEffect, unlessBusy, hb]; exact ⟨rfl, rfl, rfl⟩
          · exact ⟨rfl, rfl, rfl⟩

end Sys2Proof.Machine
end

