-- ==== Sys2Proof/Tests/Slice0.lean ====
section
/-! SUPPORT. The model's own tests: well-formedness, decoding, one step on small states, the codec's vectors, and a
witness for the hypotheses of each statement. Expected values are from 95_test_vectors.md ("95") and opcode_table.json. -/

namespace Sys2Proof.Tests

open Sys2Proof Sys2Proof.Machine

/-! ### Small states -/

/-- After `W` of four bytes to `IN[0]` and of `n` to `IN_LEN`. -/
def loaded (b0 b1 b2 b3 : Byte) (n : Len) : State :=
  { State.reset with inBuf := [(0, b0), (1, b1), (2, b2), (3, b3)], inLen := n }

/-- `op` running on four bytes. -/
def running (op : CodecOp) (b0 b1 b2 b3 : Byte) (n : Len) : State :=
  { loaded b0 b1 b2 b3 n with eng := .run op n }

/-- Decode of `Zg==` completed, with the interrupt enabled. -/
def finished : State :=
  { loaded 0x5A 0x67 0x3D 0x3D 4 with
    outStore := [(0, 0x66)], outLen := 1, ie := true,
    status := { done := true, err := false, code := 0, errByte := 0, werr := false } }

/-- Decode of `Zig!` completed with the error byte `!`. -/
def failed : State :=
  { loaded 0x5A 0x69 0x67 0x21 4 with
    status := { done := true, err := true, code := 3, errByte := 0x21, werr := false } }

/-- `s` with the transaction of a 48-bit row word at its next edge; `engine` says whether the engine's step falls
there. -/
def present (s : State) (w : Nat) (engine : Bool) : State := presentFirst { wordPins s.cfg 48 w with engine := engine } s

/-- The state after one edge, or reset where there is none. -/
def after (s : State) : State :=
  match step s with
  | .next t => t
  | .fault _ => State.reset
  | .refused _ => State.reset

/-- The STATUS word a read would give. -/
def statusOf (s : State) : Word := statusWord s.busy s.status

/-- The characters of a string as bytes. -/
def text (s : String) : List Byte := s.toList.map fun c => BitVec.ofNat 8 c.toNat

/-! ### WellFormed refuses -/

theorem test_wf_read_address_too_wide : wellFormed Params.reference (.busRead 0x4000) = false := by decide

theorem test_wf_write_address_too_wide : wellFormed Params.reference (.busWrite 0x4000 0) = false := by decide

theorem test_wf_write_at_ctrl : wellFormed Params.reference (.busWrite 0x004 0) = false := by decide

theorem test_wf_write_at_window1 : wellFormed Params.reference (.busWrite 0x1004 0) = false := by decide

theorem test_wf_inbuf_offset_too_wide : wellFormed Params.reference (.inbufWrite 0x1000 0) = false := by decide

theorem test_wf_inbuf_misaligned : wellFormed Params.reference (.inbufWrite 0x002 0) = false := by decide

theorem test_wf_accepts : wellFormed Params.reference (.busRead 0x3FFF) = true ∧
    wellFormed Params.reference (.busWrite 0x1001 5) = true ∧
    wellFormed Params.reference (.inbufWrite 0xFFC 5) = true := by decide

/-! ### Decoding: words of 95 section 6 and rows of opcode_table.json -/

-- 0 aaaaaaaaaaaaaa d*: offset 0x0010 in bits 45..32.
theorem test_decode_bus_read : decodeTableWord 48 0x001000000000 = some (.busRead 0x010) := by decide

-- 1 aaaaaaaaaaaaaa d*: offset 0x2004, no refined row.
theorem test_decode_bus_write : decodeTableWord 48 0x600400000007 = some (.busWrite 0x2004 7) := by decide

theorem test_decode_ctrl_write : decodeTableWord 48 0x400400000001 = some (.ctrlWrite 1) := by decide

theorem test_decode_in_len_write : decodeTableWord 48 0x400C00000003 = some (.inLenWrite 3) := by decide

theorem test_decode_irq_en_write : decodeTableWord 48 0x4014FFFFFFFF = some (.irqEnWrite 0xFFFFFFFF) := by decide

theorem test_decode_inbuf_write : decodeTableWord 48 0x5000006F6F66 = some (.inbufWrite 0 0x006F6F66) := by decide

-- Window 1, misaligned: no row INBUF_WRITE (its two low address bits are 00).
theorem test_decode_misaligned_window1 : decodeTableWord 48 0x500111223344 = some (.busWrite 0x1001 0x11223344) := by
  decide

theorem test_decode_cmd_none : decodeTableWord 32 0xFFFFFE00 = some .cmdNone := by decide

theorem test_decode_cmd_encode : decodeTableWord 32 0x00000001 = some .cmdEncode := by decide

theorem test_decode_cmd_decode : decodeTableWord 32 0x00000002 = some .cmdDecode := by decide

theorem test_decode_cmd_rsvd : decodeTableWord 32 0x000000FF = some .cmdRsvd := by decide

theorem test_decode_clr : decodeTableWord 32 0x00000102 = some (.clr 2) := by decide

theorem test_decode_refuses_width : decodeTableWord 40 0 = none := by decide

theorem test_decode_refuses_high_bit : decodeTableWord 48 0x800000000000 = none ∧ decodeTableWord 32 0x100000000 = none := by
  decide

/-! ### One step -/

-- 95 H1, H5.
theorem test_bus_read_id : (after (present State.reset 0x000000000000 false)).busRdata = 0x42363401 ∧
    (after (present State.reset 0x001800000000 false)).busErr = true := by decide

-- 95 H24: while BUSY, OUT_LEN and OUT[0] read 0.
theorem test_bus_read_while_busy :
    (after (present { finished with eng := .run .decode 4 } 0x001000000000 false)).busRdata = 0 ∧
      (after (present { finished with eng := .run .decode 4 } 0x200000000000 false)).busRdata = 0 := by decide

-- 95 H16, H9: STATUS ignores a write; window 3 is a bus error.
theorem test_bus_write_read_only : (after (present finished 0x4008FFFFFFFF false)).status = finished.status ∧
    (after (present finished 0x4008FFFFFFFF false)).busErr = false ∧
    (after (present State.reset 0x7000FFFFFFFF false)).busErr = true := by decide

-- 95 H25: a misaligned write while BUSY is a bus error and sets no WERR.
theorem test_bus_write_misaligned_while_busy :
    (after (present (running .encode 0 0 0 0 3) 0x400600000000 false)).busErr = true ∧
      (after (present (running .encode 0 0 0 0 3) 0x400600000000 false)).status.werr = false := by decide

-- 95 H17, H22.
theorem test_ctrl_write_starts : statusOf (after (present State.reset 0x400400000001 false)) = 0x00000001 := by decide

theorem test_ctrl_write_while_busy :
    statusOf (after (present (running .encode 0 0 0 0 3) 0x400400000102 false)) = 0x00010001 := by decide

-- 95 H14, H22.
theorem test_in_len_write : (after (present State.reset 0x400CFF000005 false)).inLen = 5 := by decide

theorem test_in_len_write_while_busy :
    (after (present (running .encode 0 0 0 0 3) 0x400C00000009 false)).inLen = 3 ∧
      (after (present (running .encode 0 0 0 0 3) 0x400C00000009 false)).status.werr = true := by decide

-- 95 H28, H23.
theorem test_irq_en_write : finished.irq = true ∧ (after (present finished 0x401400000000 false)).irq = false ∧
    (after (present finished 0x401400000000 false)).status.done = true := by decide

theorem test_irq_en_write_while_busy :
    (after (present (running .encode 0 0 0 0 3) 0x401400000001 false)).ie = true := by decide

-- 95 H13, H10 (as a write).
theorem test_inbuf_write : (after (present State.reset 0x500011223344 false)).inBuf =
    [(0, 0x44), (1, 0x33), (2, 0x22), (3, 0x11)] := by decide

theorem test_inbuf_write_at_capacity : (after (present State.reset 0x5C0000000000 false)).busErr = true ∧
    (after (present State.reset 0x5BFC00000001 false)).inBuf = [(3068, 1), (3069, 0), (3070, 0), (3071, 0)] := by decide

-- 43_host_commands.md R210.
theorem test_cmd_none : (after (State.withFetchWord finished 32 0)).status = finished.status ∧
    (after (State.withFetchWord finished 32 0)).outLen = 1 := by decide

-- 95 H20 (the start), R213 for an encode.
theorem test_cmd_encode : statusOf (after (State.withFetchWord { finished with inLen := 3072 } 32 1)) = 1 ∧
    (after (State.withFetchWord { finished with inLen := 3072 } 32 1)).eng = .run .encode 3072 := by decide

theorem test_cmd_encode_length_over :
    statusOf (after (State.withFetchWord { finished with inLen := 3073 } 32 1)) = 0x56 := by decide

-- 95 H19, H29.
theorem test_cmd_decode : statusOf (after (State.withFetchWord { State.reset with inLen := 3073 } 32 2)) = 0x56 := by decide

theorem test_cmd_decode_lowers_irq : (after (State.withFetchWord { finished with inLen := 1 } 32 2)).irq = false ∧
    statusOf (after (State.withFetchWord { finished with inLen := 1 } 32 2)) = 1 := by decide

-- 95 H18, H21.
theorem test_cmd_rsvd : statusOf (after (State.withFetchWord { finished with inLen := 0xFFFFFF } 32 3)) = 0x46 ∧
    (after (State.withFetchWord { finished with inLen := 0xFFFFFF } 32 3)).outLen = 0 := by decide

-- 95 H26, and CLR with OP = 3.
theorem test_clr : statusOf failed = 0x00002136 ∧ statusOf (after (State.withFetchWord failed 32 0x100)) = 0 := by decide

theorem test_clr_with_op : statusOf (after (State.withFetchWord failed 32 0x103)) = 0x46 := by decide

/-! ### Completion, reset, host notation -/

-- 95 H10, section 4.2: the row `Zig!`, and `Zg==` with one byte of result.
theorem test_complete_decode : statusOf (after (running .decode 0x5A 0x69 0x67 0x21 4)) = 0x00002136 ∧
    (after (running .decode 0x5A 0x67 0x3D 0x3D 4)).outStore = [(0, 0x66)] := by decide

-- 95 P1 steps 5 to 8: `foo` encodes to `Zm9v`.
theorem test_complete_encode : (after (running .encode 0x66 0x6F 0x6F 0 3)).outLen = 4 ∧
    (after (present (after (running .encode 0x66 0x6F 0x6F 0 3)) 0x200000000000 false)).busRdata = 0x76396D5A := by decide

-- 95 H30, H31.
theorem test_reset_edge : (after (presentFirst { hostWrite 0x00C 9 true with rstN := false } { finished with eng := .run .decode 4 })).eng = .idle ∧
    (after (presentFirst { hostWrite 0x00C 9 true with rstN := false } finished)).inLen = 0 ∧
    (after (presentFirst { hostWrite 0x00C 9 true with rstN := false } finished)).inBuf = finished.inBuf := by decide

-- 95 P2: LOAD "Zm9vYmFy" is W IN[0], 0x76396D5A ; W IN[1], 0x79466D59 ; W IN_LEN, 8.
theorem test_load : loadMsg Params.reference (text "Zm9vYmFy") =
    [wordPins Params.reference 48 0x500076396D5A, wordPins Params.reference 48 0x500479466D59,
      wordPins Params.reference 48 0x400C00000008] := by decide

-- 95 P1: FETCH of four bytes is R OUT_LEN ; R OUT[0].
theorem test_fetch : fetchMsg Params.reference 4 =
    [wordPins Params.reference 48 0x001000000000, wordPins Params.reference 48 0x200000000000] := by decide

-- 00_scope.md R8: BASE is aligned to 2^AW (here 2^14); 20_memory.md R61: offset 0 is at BASE.
theorem test_base : validParams { Params.reference with base := 0x40006000 } = false ∧
    validParams { Params.reference with base := 0x40004000 } = true ∧
    platformOffset { Params.reference with base := 0x40004000 } 0x40005004 = some 0x1004 ∧
    platformOffset { Params.reference with base := 0x40004000 } 0x40008000 = none := by decide

/-! ### Codec vectors -/

-- 95 section 3.3.
theorem test_encode_msg : encodeMsg (text "foob") = text "Zm9vYg==" ∧ encodeMsg [0xFB, 0xEF, 0xBE] = text "++++" ∧
    encodeMsg (text "Ma") = text "TWE=" := by decide

-- 95 section 4.2, success.
theorem test_decode_msg : decodeMsg (text "Zm9vYmE=") = .ok (text "fooba") ∧ decodeMsg (text "Zig===") = .ok [0x66, 0x28] ∧
    decodeMsg (text "Zh==") = .ok [0x66] := by decide

-- 95 section 4.2, the order of the errors.
theorem test_decode_msg_errors : decodeMsg (text "a=bcd") = .err .inputLength 0 ∧
    decodeMsg (text "!!!!Zg==Zg==") = .err .wrongPadding 0 ∧ decodeMsg (text "Z=g=") = .err .invalidByte 0x3D := by decide

-- 95 section 4.1.
theorem test_pack_and_validate : pack24 24 22 5 33 = (0x61, 0x61, 0x61) ∧ decGroup 25 33 0 0 2 = [0x66] ∧
    validate 5 0 true = 1 ∧ validate 3 2 false = 0 := by decide

/-! ### Witnesses: states and operands that meet each statement's hypotheses, one for each clause -/

/-- The smallest configuration 00_scope.md R8 admits: `OUT_CAP = 8` lies inside window 2. -/
def smallest : Params := { inCap := 4, w := 5, base := 0x40000080 }

/-- The largest window, filled by the output buffer. -/
def largest : Params := { inCap := 3145728, w := 22, base := 0xFF000000 }

theorem witness_DecodeOfEncodeIsIdentity : validParams smallest = true ∧ validParams largest = true ∧
    wellFormed smallest (.busRead 0x7F) = true ∧ wellFormed smallest (.busWrite 0x7E 7) = true ∧
    wellFormed largest (.inbufWrite 0x3FFFFC 7) = true ∧ wellFormed largest (.clr 3) = true := by decide

theorem witness_EveryTransactionHasOneRow : validParams smallest = true ∧ 2 ^ 39 - 1 < 2 ^ (smallest.w + 34) ∧
    2 ^ (smallest.w + 34) ≤ 2 ^ 39 ∧ 2 ^ 40 - 1 < 2 ^ (smallest.w + 35) := by decide

theorem witness_EveryCommandWordHasOneRow : (0xFFFFFFFF : Word).toNat / 256 % 2 = 1 ∧
    (0xFFFFFEFC : Word).toNat / 256 % 2 = 0 ∧ (0xFFFFFEFC : Word).toNat % 4 = 0 ∧
    (0xFFFFFEFD : Word).toNat % 4 = 1 ∧ (0xFFFFFEFE : Word).toNat % 4 = 2 ∧ (0xFFFFFEFF : Word).toNat % 4 = 3 := by decide

theorem witness_StepRunsThePresentedTransaction :
    (present finished 0x500011223344 true).input =
        { wordPins Params.reference 48 0x500011223344 with engine := true } :: [] ∧
      (wordPins Params.reference 48 0x500011223344).rstN = true ∧
      (wordPins Params.reference 48 0x500011223344).req = true := by decide

theorem witness_StepRunsThePresentedCommand :
    (State.withFetchWord finished 32 2).input = wordPins Params.reference 32 2 :: [] ∧
      (wordPins Params.reference 32 2).rstN = true ∧ (wordPins Params.reference 32 2).req = true ∧
      (wordPins Params.reference 32 2).we = true ∧
      portAddr Params.reference (wordPins Params.reference 32 2).addr = 0x004 := by decide

theorem witness_EdgeWithoutTransactionAnswersZero :
    (nextPins (running .encode 0 0 0 0 3)).rstN = true ∧ (nextPins (running .encode 0 0 0 0 3)).req = false ∧
      (running .encode 0 0 0 0 3).input = [] := by decide

/-- A reset edge with a write presented at it. -/
def resetPins : Pins := { hostWrite 0x00C 9 true with rstN := false }

theorem witness_ResetEdgeTakesResetValues :
    (presentFirst resetPins (running .encode 0 0 0 0 3)).input = resetPins :: [] ∧ resetPins.rstN = false := by decide

theorem witness_BusReadReturnsTheTarget : busError Params.reference 0x018 = true ∧
    (([0x000, 0x004, 0x008, 0x00C, 0x010, 0x014] : List Addr).all fun a => window Params.reference a == 0 && !busError Params.reference a) = true ∧
    (([0x1000, 0x1BFC] : List Addr).all fun a => window Params.reference a == 1 && !busError Params.reference a) = true ∧
    (([0x2000, 0x2FFC] : List Addr).all fun a => window Params.reference a == 2 && !busError Params.reference a) = true := by decide

theorem witness_BusErrorExactlyOnTheFiveConditions : busError Params.reference 0x003 = true ∧
    busError Params.reference 0x3FFC = true ∧ busError Params.reference 0xFFC = true ∧
    busError Params.reference 0x1C00 = true ∧ busError smallest 0x48 = true ∧ busError smallest 0x44 = false ∧
    busError Params.reference 0x1BFC = false ∧ busError Params.reference 0x014 = false := by decide

theorem witness_InbufWriteBusError : validParams State.reset.cfg = true ∧ (0xC00 : Addr).toNat < 2 ^ State.reset.cfg.w ∧
    State.reset.cfg.inCap ≤ (0xC00 : Addr).toNat ∧ (0x003 : Addr).toNat % 4 ≠ 0 := by decide

theorem witness_OutputReadIsMasked : finished.busy = false ∧
    (0x2000 : Addr).toNat / 2 ^ finished.cfg.w % 4 = 2 ∧ (0x2000 : Addr).toNat % 4 = 0 ∧
    (0x2000 : Addr).toNat % 2 ^ finished.cfg.w < outCap finished.cfg ∧
    (0x2000 : Addr).toNat % 2 ^ finished.cfg.w + 0 < finished.outLen.toNat ∧
    ¬(0x2000 : Addr).toNat % 2 ^ finished.cfg.w + 1 < finished.outLen.toNat ∧
    (0x2FFC : Addr).toNat % 2 ^ finished.cfg.w < outCap finished.cfg := by decide

theorem witness_BufferWordIsLittleEndian : validParams finished.cfg = true ∧ finished.busy = false ∧
    (0xBFC : Addr).toNat % 4 = 0 ∧ (0xBFC : Addr).toNat < finished.cfg.inCap := by decide

/-- `finished` with another byte beyond the result, in a block at another BASE. -/
def finishedElsewhere : State :=
  { finished with
    cfg := { Params.reference with base := 0x40004000 }, outStore := [(0, 0x66), (1, 0xAA)], outDraws := 3 }

theorem witness_HiddenOutStoreIsUnobservable : finished ≠ finishedElsewhere ∧ SameToHost finished finishedElsewhere ∧
    step finished = .next (after finished) ∧ step finishedElsewhere = .next (after finishedElsewhere) := by
  refine ⟨by decide, ⟨rfl, rfl, rfl, rfl, rfl, rfl, rfl, rfl, rfl, rfl, rfl, rfl, fun i => ?_⟩, rfl, rfl⟩
  cases i with
  | zero => decide
  | succ i => simp [outView, finished, finishedElsewhere]

theorem witness_InLenWriteStoresTheLow24Bits : finished.busy = false ∧ (running .encode 0 0 0 0 3).busy = true := by
  decide

theorem witness_InbufWriteStoresFourBytes : validParams finished.cfg = true ∧ finished.busy = false ∧
    (0xBFC : Addr).toNat % 4 = 0 ∧ (0xBFC : Addr).toNat < finished.cfg.inCap := by decide

theorem witness_WriteWhileBusyIsDropped : (running .decode 0 0 0 0 3).busy = true ∧
    validParams (running .decode 0 0 0 0 3).cfg = true ∧ (0xBFC : Addr).toNat % 4 = 0 ∧
    (0xBFC : Addr).toNat < (running .decode 0 0 0 0 3).cfg.inCap ∧
    (([0x004, 0x00C, 0x1BFC] : List Addr).all fun a => !busError Params.reference a) = true ∧ window Params.reference 0x004 = 0 ∧
    offset Params.reference 0x004 = 0x004 ∧ window Params.reference 0x00C = 0 ∧
    offset Params.reference 0x00C = 0x00C ∧ window Params.reference 0x1BFC = 1 := by decide

theorem witness_ReadOnlyWritesAreIgnored : 5 ≤ finished.cfg.w ∧ (0x2FFC : Addr).toNat / 2 ^ finished.cfg.w % 4 = 2 ∧
    (0x2FFC : Addr).toNat % 4 = 0 ∧ (0x2FFC : Addr).toNat % 2 ^ finished.cfg.w < outCap finished.cfg := by decide

theorem witness_BusWriteMeansItsRefinedRow : validParams finished.cfg = true ∧
    (0x3FFF : Addr).toNat < 2 ^ (finished.cfg.w + 2) ∧ refinedWrite finished.cfg 0x3FFF = false ∧
    refinedWrite finished.cfg 0x1FFC = true := by decide

theorem witness_ReservedBitsAreIgnored : (0x00000103 : Word).toNat % 4 = (0xFFFFFFFF : Word).toNat % 4 ∧
    (0x00000103 : Word).toNat / 256 % 2 = (0xFFFFFFFF : Word).toNat / 256 % 2 ∧
    (0x00FFFFFF : Word).toNat % 2 ^ 24 = (0xFFFFFFFF : Word).toNat % 2 ^ 24 ∧
    (0x00000001 : Word).toNat % 2 = (0xFFFFFFFF : Word).toNat % 2 := by decide

theorem witness_CmdNoneWhileIdleIsANoOp : finished.busy = false ∧ (0xFFFFFEFC : Word).toNat % 4 = 0 ∧
    (0xFFFFFEFC : Word).toNat / 256 % 2 = 0 := by decide

theorem witness_AcceptedStartRunsTheEngine : (loaded 1 2 3 4 3072).busy = false ∧
    (loaded 1 2 3 4 3072).inLen.toNat ≤ (loaded 1 2 3 4 3072).cfg.inCap := by decide

theorem witness_LengthAboveCapacityIsRefused : (loaded 1 2 3 4 3073).busy = false ∧
    (loaded 1 2 3 4 3073).cfg.inCap < (loaded 1 2 3 4 3073).inLen.toNat := by decide

theorem witness_ReservedCommandIsRefused : finished.busy = false := by decide

theorem witness_ClrClearsThenOpActs : failed.busy = false := by decide

theorem witness_CommandDescribesNothingEarlier : finished.busy = false ∧ failed.busy = false ∧
    finished.inLen = failed.inLen ∧ finished.cfg = failed.cfg ∧ finished.status ≠ failed.status ∧
    (0x00000001 : Word).toNat % 4 ≠ 0 := by decide

theorem witness_EncodeCompletionPlacesTheText : validParams (running .encode 1 2 3 4 3072).cfg = true ∧
    (running .encode 1 2 3 4 3072).eng = .run .encode 3072 ∧
    (3072 : Len).toNat ≤ (running .encode 1 2 3 4 3072).cfg.inCap := by decide

-- Encoding one byte over an OutStore that lists bytes 3 and 4: byte 3 is PAD, byte 4 is beyond the text and stays.
theorem test_completion_keeps_bytes_beyond :
    (complete { running .encode 0x66 0 0 0 1 with outStore := [(3, 0x11), (4, 0x22)] }).outStore =
      [(0, 0x5A), (1, 0x67), (2, 0x3D), (3, 0x3D), (4, 0x22)] := by decide

theorem witness_DecodeCompletionReportsTheResult : validParams (running .decode 0x5A 0x67 0x3D 0x3D 4).cfg = true ∧
    (running .decode 0x5A 0x67 0x3D 0x3D 4).eng = .run .decode 4 ∧
    (4 : Len).toNat ≤ (running .decode 0x5A 0x67 0x3D 0x3D 4).cfg.inCap ∧
    decodeMsg (message (running .decode 0x5A 0x67 0x3D 0x3D 4) 4) = .ok [0x66] ∧
    decodeMsg (message (running .decode 0x61 0 0 0 1) 1) = .err .inputLength 0 ∧
    decodeMsg (message (running .decode 0x5A 0x67 0x3D 0x61 4) 4) = .err .wrongPadding 0 ∧
    decodeMsg (message (running .decode 0x5A 0x69 0x67 0x21 4) 4) = .err .invalidByte 0x21 := by decide

/-- A start, and a write to IN_LEN at the edge of a completion. -/
theorem witness_TransactionIsOrderedBeforeCompletion :
    validParams finished.cfg = true ∧ finished.busy = false ∧ (running .decode 0 0 0 0 3).busy = true ∧
    (nextPins (present finished 0x400400000001 true)).rstN = true ∧
    (nextPins (present finished 0x400400000001 true)).req = true ∧
    (nextPins (present (running .decode 0 0 0 0 3) 0x400C00000009 true)).engine = true ∧
    busError Params.reference 0x00C = false ∧
    presentsWrite (present (running .decode 0 0 0 0 3) 0x400C00000009 true) 0x00C 9 ∧
    step (present finished 0x400400000001 true) = .next (after (present finished 0x400400000001 true)) ∧
    step (present (running .decode 0 0 0 0 3) 0x400C00000009 true) =
      .next (after (present (running .decode 0 0 0 0 3) 0x400C00000009 true)) := by
  refine ⟨by decide, by decide, by decide, by decide, by decide, by decide, by decide, ?_, rfl, rfl⟩
  unfold presentsWrite; decide

theorem witness_EngineInputIsStable : (running .decode 0 0 0 0 3).busy = true ∧
    ¬atReset (present (running .decode 0 0 0 0 3) 0x400C00000009 true) ∧
    atReset (presentFirst resetPins (running .decode 0 0 0 0 3)) ∧
    step (presentFirst resetPins (running .decode 0 0 0 0 3)) =
      .next (after (presentFirst resetPins (running .decode 0 0 0 0 3))) := by
  unfold atReset
  exact ⟨by decide, by decide, by decide, rfl⟩

theorem witness_NoTransactionCancelsACommand :
    (present (running .decode 0 0 0 0 3) 0x400400000100 false).eng = .run .decode 3 ∧
    ¬atReset (present (running .decode 0 0 0 0 3) 0x400400000100 false) ∧
    (nextPins (present (running .decode 0 0 0 0 3) 0x400400000100 false)).engine = false ∧
    (nextPins (present (running .decode 0 0 0 0 3) 0x400400000100 true)).engine = true ∧
    step (present (running .decode 0 0 0 0 3) 0x400400000100 false) =
      .next (after (present (running .decode 0 0 0 0 3) 0x400400000100 false)) := by
  unfold atReset
  exact ⟨by decide, by decide, by decide, by decide, rfl⟩

theorem witness_StartedCommandCompletes : (present (running .decode 0 0 0 0 3) 0x000800000000 false).busy = true ∧
    ∀ c ∈ (present (running .decode 0 0 0 0 3) 0x000800000000 false).input, c.rstN = true := by decide

theorem witness_ResultDependsOnTheCommandOnly :
    (running .encode 1 2 3 4 3).eng = .run .encode 3 ∧
    ({ running .encode 1 2 3 9 3 with outStore := [(0, 7)] } : State).eng = .run .encode 3 ∧
    (∀ i < 3, inBufByte (running .encode 1 2 3 4 3) i =
      inBufByte { running .encode 1 2 3 9 3 with outStore := [(0, 7)] } i) ∧
    running .encode 1 2 3 4 3 ≠ { running .encode 1 2 3 9 3 with outStore := [(0, 7)] } := by decide

theorem witness_AlphabetIsABijection : c2i 0x2F = (true, 63) ∧ (c2i 0x3D).1 = false := by decide

theorem witness_EncodeWorksGroupByGroup : 1 < ((text "foob").length + 2) / 3 ∧
    min 3 ((text "foob").length - 3 * 1) = 1 ∧ min 3 ((text "foob").length - 3 * 0) = 3 := by decide

theorem witness_EncodeOutputShape : 7 < (encodeMsg (text "foob")).length ∧
    5 < (encodeMsg (text "foob")).length - (3 - (text "foob").length % 3) % 3 ∧
    (encodeMsg (text "foob")).length - (3 - (text "foob").length % 3) % 3 ≤ 6 := by decide

/-- Last groups of two, three and four characters. -/
theorem witness_DecodeLengthLaw : decodeMsg (text "Zm9vYg==") = .ok (text "foob") ∧
    1 < (coreLen (text "Zm9vYg==") + 3) / 4 ∧ min 4 (coreLen (text "Zm9vYg==") - 4 * 1) = 2 ∧
    min 4 (coreLen (text "Zm9vYg==") - 4 * 0) = 4 ∧
    decodeMsg (text "Zig==") = .ok [0x66, 0x28] ∧ min 4 (coreLen (text "Zig==") - 4 * 0) = 3 := by decide

theorem witness_ExcessPaddingChangesNothing : (text "Zg").getLast? ≠ some pad ∧ (text "Zg").length % 4 = 2 ∧
    (text "Zm8").getLast? ≠ some pad ∧ (text "Zm8").length % 4 = 3 := by decide

theorem witness_DecodeErrorPriority : coreLen (text "a=bcd") % 4 = 1 ∧
    (coreLen (text "ab==cdef") % 4 ≠ 1 ∧ (text "ab==cdef")[2]? = some pad) ∧
    (coreLen (text "Zg=") % 4 = 2 ∧ trailingLen (text "Zg=") < 2) ∧
    (coreLen (text "Zm8") % 4 = 3 ∧ trailingLen (text "Zm8") < 1) ∧
    ((text "Z=g=")[1]? = some 0x3D ∧ (c2i 0x3D).1 = false ∧ 1 < coreLen (text "Z=g=")) := by decide

/-- `Zg==` and `Zh==`, `Zm8=` and `Zm9=` (R172's own examples with their canonical twins), and the two group forms. -/
theorem witness_DroppedBitsAreNotChecked : c2i 0x67 = (true, 32) ∧ c2i 0x68 = (true, 33) ∧
    (text "Z").length % 4 = 1 ∧ (32 : Sextet).toNat / 16 = (33 : Sextet).toNat / 16 ∧ 3 ≤ (text "Z").length % 4 + 2 ∧
    c2i 0x38 = (true, 60) ∧ c2i 0x39 = (true, 61) ∧
    (text "Zm").length % 4 = 2 ∧ (60 : Sextet).toNat / 4 = (61 : Sextet).toNat / 4 ∧ 3 ≤ (text "Zm").length % 4 + 1 ∧
    ((text "Zm").all fun d => (c2i d).1) = true ∧
    (32 : Sextet).toNat / 16 = (47 : Sextet).toNat / 16 ∧ (60 : Sextet).toNat / 4 = (63 : Sextet).toNat / 4 := by decide

theorem witness_InterruptLineFollowsDone : finished.irq = true ∧ (running .decode 0 0 0 0 3).busy = true ∧
    exec (.busRead 0x018) finished = .next (respondError finished) ∧ (respondError finished).busErr = true ∧
    exec (.inLenWrite 9) (running .decode 0 0 0 0 3) =
      .next (respondWrite (dropWrite (running .decode 0 0 0 0 3))) ∧
    (respondWrite (dropWrite (running .decode 0 0 0 0 3))).ie = (running .decode 0 0 0 0 3).ie :=
  ⟨by decide, by decide, rfl, rfl, rfl, rfl⟩

/-- A running command meets the invariant. -/
theorem witness_EveryEdgeKeepsTheInvariant : Inv (running .decode 0x5A 0x67 0x3D 0x3D 4) ∧
    step (running .decode 0x5A 0x67 0x3D 0x3D 4) = .next (after (running .decode 0x5A 0x67 0x3D 0x3D 4)) := by
  refine ⟨⟨by decide, by decide, by decide, by decide, by decide, ?_, fun _ => ⟨⟨rfl, rfl, rfl, rfl⟩, rfl⟩, by decide,
    by decide, by decide, by decide, by decide, by decide, ?_⟩, rfl⟩
  · intro op len h
    cases h
    decide
  · intro i h
    exact absurd h (Nat.not_lt_zero i)

/-- `failed` with a dropped write remembered. -/
def failedWithWerr : State := { failed with status := { failed.status with werr := true } }

theorem witness_OnlyClrAndResetClearWerr : failedWithWerr.status.werr = true ∧
    step (State.withFetchWord failedWithWerr 32 0x100) = .next (after (State.withFetchWord failedWithWerr 32 0x100)) ∧
    (after (State.withFetchWord failedWithWerr 32 0x100)).status.werr = false ∧
    (after (presentFirst resetPins failedWithWerr)).status.werr = false ∧
    step (presentFirst resetPins failedWithWerr) = .next (after (presentFirst resetPins failedWithWerr)) :=
  ⟨by decide, rfl, by decide, by decide, rfl⟩

theorem witness_ResultStaysUntilTheNextCommand : validParams finished.cfg = true ∧ finished.busy = false ∧
    step (State.withFetchWord finished 32 0x100) = .next (after (State.withFetchWord finished 32 0x100)) ∧
    ¬atReset (State.withFetchWord finished 32 0x100) ∧
    ∀ v, presentsWrite (State.withFetchWord finished 32 0x100) 0x004 v → v.toNat % 4 = 0 := by
  refine ⟨by decide, by decide, rfl, by unfold atReset; decide, ?_⟩
  rintro v ⟨_, _, _, _, rfl⟩
  decide

theorem witness_BusyOrDoneAfterAStart : validParams finished.cfg = true ∧ finished.status.done = true ∧
    (running .decode 0 0 0 0 3).busy = true ∧
    step (State.withFetchWord finished 32 0x101) = .next (after (State.withFetchWord finished 32 0x101)) ∧
    ¬atReset (State.withFetchWord finished 32 0x101) ∧
    ∀ v, (State.withFetchWord finished 32 0x101).busy = false →
      presentsWrite (State.withFetchWord finished 32 0x101) 0x004 v →
      ¬(v.toNat / 256 % 2 = 1 ∧ v.toNat % 4 = 0) := by
  refine ⟨by decide, by decide, by decide, rfl, by unfold atReset; decide, ?_⟩
  rintro v _ ⟨_, _, _, _, rfl⟩
  decide

theorem witness_OnlyAcceptedWritesChangeInBuf : validParams State.reset.cfg = true ∧
    step (present State.reset 0x500011223344 false) = .next (after (present State.reset 0x500011223344 false)) ∧
    (after (present State.reset 0x500011223344 false)).inBuf ≠ (present State.reset 0x500011223344 false).inBuf :=
  ⟨by decide, rfl, by decide⟩

end Sys2Proof.Tests
end

/-! PROOFS (10_state.md). What the host cannot tell apart stays so: every operation of the block, and so every edge,
takes two states that are the same to the host to two that are (R23, R24, R40). -/

namespace Sys2Proof.Machine

/-! ### Two states that are the same to the host: every operation keeps them so -/

section SameToHost

variable {s t : State}

theorem SameToHost.busy (h : SameToHost s t) : s.busy = t.busy := busy_congr h.eng

theorem SameToHost.irq (h : SameToHost s t) : s.irq = t.irq := irq_congr (by rw [h.status]) h.ie

theorem SameToHost.nextPins (h : SameToHost s t) : nextPins s = nextPins t := by
  simp only [Machine.nextPins, h.input]

theorem SameToHost.busError (h : SameToHost s t) (a : Addr) : busError s.cfg a = busError t.cfg a :=
  busError_congr h.inCap h.w a

theorem SameToHost.readWord (h : SameToHost s t) (a : Addr) : readWord s a = readWord t a :=
  readWord_congr h.w h.eng h.status h.inLen h.outLen h.ie h.inBuf h.view a

theorem SameToHost.takeInput (h : SameToHost s t) : SameToHost (takeInput s) (takeInput t) :=
  { h with input := by simp [h.input] }

/-! ### The responses -/

theorem SameToHost.respondRead (h : SameToHost s t) (v : Word) : SameToHost (respondRead v s) (respondRead v t) :=
  { h with busRdata := rfl, busErr := rfl }

theorem SameToHost.respondWrite (h : SameToHost s t) : SameToHost (respondWrite s) (respondWrite t) :=
  { h with busRdata := by simp [h.rdataDraws], busErr := rfl, rdataDraws := by simp [h.rdataDraws] }

theorem SameToHost.respondError (h : SameToHost s t) : SameToHost (respondError s) (respondError t) :=
  { h with busRdata := rfl, busErr := rfl }

theorem SameToHost.respondNothing (h : SameToHost s t) : SameToHost (respondNothing s) (respondNothing t) :=
  { h with busRdata := rfl, busErr := rfl }

/-- The host sees the same response to a transaction that ends in the same way. -/
theorem SameToHost.respondUnlessError (h : SameToHost s t) (a : Addr) {u v : State} (hu : SameToHost u v) :
    SameToHost (if Machine.busError s.cfg a then Machine.respondError s else u)
      (if Machine.busError t.cfg a then Machine.respondError t else v) := by
  rw [h.busError a]
  split
  · exact h.respondError
  · exact hu

/-! ### Writes -/

theorem SameToHost.dropWrite (h : SameToHost s t) : SameToHost (dropWrite s) (dropWrite t) :=
  { h with status := by simp [h.status] }

theorem SameToHost.unlessBusy (h : SameToHost s t) {f : State → State} (hf : SameToHost (f s) (f t)) :
    SameToHost (unlessBusy f s) (unlessBusy f t) := by
  simp only [Machine.unlessBusy, h.busy]
  split
  · exact h.dropWrite
  · exact hf

theorem SameToHost.inbufEffect (h : SameToHost s t) (off : Nat) (v : Word) :
    SameToHost (inbufEffect off v s) (inbufEffect off v t) :=
  h.unlessBusy { h with inBuf := by simp only [h.inBuf] }

theorem SameToHost.inLenEffect (h : SameToHost s t) (v : Word) : SameToHost (inLenEffect v s) (inLenEffect v t) :=
  h.unlessBusy { h with inLen := rfl }

theorem SameToHost.irqEnEffect (h : SameToHost s t) (v : Word) : SameToHost (irqEnEffect v s) (irqEnEffect v t) :=
  { h with ie := rfl }

/-! ### Commands: while a command runs, and when `OUT_LEN` is 0, the view is 0 whatever `OutStore` holds -/

theorem SameToHost.clearStatus (h : SameToHost s t) : SameToHost (clearStatus s) (clearStatus t) :=
  { h with status := rfl }

theorem SameToHost.acceptStart (h : SameToHost s t) (op : CodecOp) :
    SameToHost (acceptStart op s) (acceptStart op t) :=
  { h with
    eng := by simp [h.inLen]
    status := by simp [h.status]
    outLen := rfl
    view := fun i => by simp [outView] }

theorem SameToHost.refuseLenOver (h : SameToHost s t) : SameToHost (refuseLenOver s) (refuseLenOver t) :=
  { h with status := by simp [h.status], outLen := rfl, view := fun i => by simp [outView] }

theorem SameToHost.refuseBadCmd (h : SameToHost s t) : SameToHost (refuseBadCmd s) (refuseBadCmd t) :=
  { h with status := by simp [h.status], outLen := rfl, view := fun i => by simp [outView] }

theorem SameToHost.start (h : SameToHost s t) (op : CodecOp) : SameToHost (start op s) (start op t) := by
  simp only [Machine.start, h.inCap, h.inLen]
  split
  · exact h.refuseLenOver
  · exact h.acceptStart op

theorem SameToHost.opEffect (h : SameToHost s t) (op : BitVec 2) : SameToHost (opEffect op s) (opEffect op t) := by
  simp only [Machine.opEffect]
  split_ifs
  · exact h
  · exact h.start .encode
  · exact h.start .decode
  · exact h.refuseBadCmd

theorem SameToHost.ctrlEffect (h : SameToHost s t) (v : Word) : SameToHost (ctrlEffect v s) (ctrlEffect v t) := by
  refine h.unlessBusy (SameToHost.opEffect ?_ _)
  split
  · exact h.clearStatus
  · exact h

theorem SameToHost.writeEffect (h : SameToHost s t) (a : Addr) (v : Word) :
    SameToHost (writeEffect a v s) (writeEffect a v t) := by
  simp only [Machine.writeEffect, window_congr h.w, offset_congr h.w]
  split_ifs
  · exact h.ctrlEffect v
  · exact h.inLenEffect v
  · exact h.irqEnEffect v
  · exact h
  · exact h.inbufEffect _ v
  · exact h

/-! ### The engine and reset -/

/-- A result that both states store is the whole of what either shows. -/
theorem SameToHost.completeOk (h : SameToHost s t) (out : List Byte) :
    SameToHost (completeOk out s) (completeOk out t) :=
  { h with
    status := by simp [h.status]
    outLen := rfl
    eng := rfl
    view := fun i => by rw [outView_completeOk, outView_completeOk] }

theorem SameToHost.completeErr (h : SameToHost s t) (k : ErrKind) (b : Byte) :
    SameToHost (completeErr k b s) (completeErr k b t) :=
  { h with
    status := by simp [h.status]
    outLen := rfl
    eng := rfl
    view := fun i => by rw [outView_completeErr, outView_completeErr] }

theorem SameToHost.complete (h : SameToHost s t) : SameToHost (complete s) (complete t) := by
  simp only [Machine.complete, ← h.eng]
  cases s.eng with
  | idle => exact h
  | run op len =>
    simp only [completeRun, message_congr h.inBuf]
    cases codec op (message t len.toNat) with
    | ok out => exact h.completeOk out
    | err k b => exact h.completeErr k b

theorem SameToHost.engineEdge (h : SameToHost s t) {u v : State} (hu : SameToHost u v) :
    SameToHost (engineEdge s u) (engineEdge t v) := by
  simp only [Machine.engineEdge, h.nextPins, h.busy]
  split
  · exact hu.complete
  · exact hu

theorem SameToHost.resetEdge (h : SameToHost s t) : SameToHost (resetEdge s) (resetEdge t) :=
  { h with
    status := rfl
    inLen := rfl
    outLen := rfl
    ie := rfl
    eng := rfl
    busRdata := rfl
    busErr := rfl
    view := fun i => by simp [outView] }

/-! ### Transactions and edges -/

theorem SameToHost.exec (h : SameToHost s t) (i : Instr) :
    ∃ u v, exec i s = .next u ∧ exec i t = .next v ∧ SameToHost u v := by
  cases i with
  | busRead a =>
    refine ⟨_, _, rfl, rfl, h.respondUnlessError a ?_⟩
    rw [h.readWord a]
    exact h.respondRead _
  | busWrite a v => exact ⟨_, _, rfl, rfl, h.respondUnlessError a (h.writeEffect a v).respondWrite⟩
  | ctrlWrite v => exact ⟨_, _, rfl, rfl, (h.ctrlEffect v).respondWrite⟩
  | inLenWrite v => exact ⟨_, _, rfl, rfl, (h.inLenEffect v).respondWrite⟩
  | irqEnWrite v => exact ⟨_, _, rfl, rfl, (h.irqEnEffect v).respondWrite⟩
  | inbufWrite off v =>
    refine ⟨_, _, rfl, rfl, ?_⟩
    rw [inWindow_congr h.w, offset_congr h.w]
    exact h.respondUnlessError _ (h.inbufEffect _ v).respondWrite
  | cmdNone => exact ⟨_, _, rfl, rfl, (h.unlessBusy h).respondWrite⟩
  | cmdEncode => exact ⟨_, _, rfl, rfl, (h.unlessBusy (h.start .encode)).respondWrite⟩
  | cmdDecode => exact ⟨_, _, rfl, rfl, (h.unlessBusy (h.start .decode)).respondWrite⟩
  | cmdRsvd => exact ⟨_, _, rfl, rfl, (h.unlessBusy h.refuseBadCmd).respondWrite⟩
  | clr op => exact ⟨_, _, rfl, rfl, (h.unlessBusy (h.clearStatus.opEffect op)).respondWrite⟩

theorem SameToHost.step (h : SameToHost s t) :
    ∃ u v, step s = .next u ∧ step t = .next v ∧ SameToHost u v := by
  have hp := h.nextPins
  cases h1 : (Machine.nextPins s).rstN
  · exact ⟨_, _, step_reset h1, step_reset (hp ▸ h1), h.takeInput.resetEdge⟩
  · cases h2 : (Machine.nextPins s).req
    · exact ⟨_, _, step_quiet h1 h2, step_quiet (hp ▸ h1) (hp ▸ h2), h.engineEdge h.takeInput.respondNothing⟩
    · rw [step_transaction h1 h2, step_transaction (hp ▸ h1) (hp ▸ h2), ← hp, decodeBus_congr h.w]
      obtain ⟨u, v, hu, hv, huv⟩ := h.takeInput.exec
        (decodeBus t.cfg (Machine.nextPins s).we (Machine.nextPins s).addr (Machine.nextPins s).wdata)
      rw [hu, hv]
      exact ⟨_, _, rfl, rfl, h.engineEdge huv⟩

end SameToHost

/-- Settles O18: every operation of an edge keeps two states the same to the host. -/
theorem hiddenOutStoreIsUnobservable : Obligations.HiddenOutStoreIsUnobservable := by
  intro s t s' t' h hs ht
  obtain ⟨u, v, hu, hv, huv⟩ := h.step
  rw [hs] at hu
  rw [ht] at hv
  cases hu
  cases hv
  exact ⟨huv, huv.irq⟩

end Sys2Proof.Machine

/-! PROOFS (10_state.md, 43_host_commands.md R220). The invariant: each operation of the block keeps it. -/

namespace Sys2Proof.Machine

/-! ### The length of a result -/

theorem encodeMsg_length (t : List Byte) : (encodeMsg t).length = 4 * ((t.length + 2) / 3) := by
  rw [encodeMsg_eq, List.length_append, List.length_map, sextets_length, List.length_replicate]
  split <;> omega

/-- A decode succeeds exactly when Steps 2 to 4 pass and every character of the core has a sextet. -/
theorem decodeMsg_ok_iff (t out : List Byte) : decodeMsg t = .ok out ↔
    badLength (coreLen t) = false ∧ midPad (coreText t) = false ∧ shortPad (coreLen t) (trailingLen t) = false ∧
      ∃ s, translateAll (coreText t) = .ok s ∧ out = packMsg s := by
  unfold decodeMsg
  split_ifs with h1 h2 h3
  · simp [h1]
  · simp [h2]
  · simp [h3]
  · cases translateAll (coreText t) with
    | error b => simp
    | ok s => simp [h1, h2, h3, eq_comm]

theorem decodeMsg_length_le {t out : List Byte} (h : decodeMsg t = .ok out) : out.length ≤ t.length := by
  obtain ⟨hlen, -, -, s, hs, rfl⟩ := (decodeMsg_ok_iff t out).mp h
  have h1 : s.length = coreLen t := by rw [translateAll_length _ _ hs, coreText_length]
  have h2 : s.length % 4 ≠ 1 := by rw [h1]; simpa [badLength] using hlen
  have h3 := coreLen_le t
  rw [packMsg_length s h2]
  split_ifs <;> omega

/-- The result of a command on `n` bytes has at most `4 * ceil(n / 3)` bytes (42_decoder.md R168). -/
theorem codec_length_le {op : CodecOp} {t out : List Byte} (h : codec op t = .ok out) :
    out.length ≤ 4 * ((t.length + 2) / 3) := by
  cases op with
  | encode => cases h; exact (encodeMsg_length t).le
  | decode => have := decodeMsg_length_le h; omega

/-- Only InvalidByte reports a byte (42_decoder.md R160). -/
theorem codec_err_byte {op : CodecOp} {t : List Byte} {k : ErrKind} {b : Byte} (h : codec op t = .err k b) :
    k = .invalidByte ∨ b = 0 := by
  cases op with
  | encode => cases h
  | decode => exact decodeMsg_err_byte t k b h

/-! ### Operations that touch no field of the invariant -/

section Inv

variable {s t : State}

theorem Inv.validParams (hi : Inv s) : ValidParams s.cfg := .of hi.cfgValid

theorem Inv.takeInput (hi : Inv s) : Inv (takeInput s) := { hi with }

theorem Inv.respondRead (hi : Inv s) (v : Word) : Inv (respondRead v s) := { hi with }

theorem Inv.respondWrite (hi : Inv s) : Inv (respondWrite s) := { hi with }

theorem Inv.respondError (hi : Inv s) : Inv (respondError s) := { hi with }

theorem Inv.respondNothing (hi : Inv s) : Inv (respondNothing s) := { hi with }

theorem Inv.irqEnEffect (hi : Inv s) (v : Word) : Inv (irqEnEffect v s) := { hi with }

theorem Inv.dropWrite (hi : Inv s) : Inv (dropWrite s) := { hi with }

/-! ### Writes while idle -/

theorem Inv.setInLen (hi : Inv s) (hb : s.busy = false) (n : Len) : Inv { s with inLen := n } :=
  { hi with
    runsInput := fun op len he => by cases (busy_eq_false.mp hb).symm.trans he }

/-- An aligned word below `IN_CAP` ends below it, since `IN_CAP` is a multiple of 4. -/
theorem Inv.writeInBuf (hi : Inv s) {off : Nat} {l : List Byte} (h4 : off % 4 = 0) (hc : off < s.cfg.inCap)
    (hl : l.length = 4) : Inv { s with inBuf := s.inBuf.writeAll off l } :=
  { hi with
    inBufWf := Memory.wf_writeAll l s.inBuf off hi.inBufWf
    inBufMapped :=
      have hend : off + l.length ≤ s.cfg.inCap := by have := hi.validParams.cap4; omega
      Memory.below_writeAll l s.inBuf hend hi.inBufMapped }

/-! ### Commands -/

theorem Inv.clearStatus (hi : Inv s) (hb : s.busy = false) : Inv (clearStatus s) :=
  { hi with
    busyClean := fun h => absurd (hb.symm.trans h) Bool.false_ne_true
    codeLegal := by simp [statusCleared]
    errIsCode := by simp [statusCleared]
    errIsDone := by simp [statusCleared]
    errByteIsInvalid := by simp [statusCleared]
    errHidesOutput := by simp [statusCleared] }

theorem Inv.acceptStart (hi : Inv s) (op : CodecOp) (hn : s.inLen.toNat ≤ s.cfg.inCap) : Inv (acceptStart op s) :=
  { hi with
    runsInput := fun _ _ h => by cases h; exact ⟨rfl, hn⟩
    busyClean := fun _ => ⟨⟨rfl, rfl, rfl, rfl⟩, rfl⟩
    codeLegal := by simp [statusStarted]
    errIsCode := by simp [statusStarted]
    errIsDone := by simp [statusStarted]
    errByteIsInvalid := by simp [statusStarted]
    errHidesOutput := fun _ => rfl
    resultFits := Nat.zero_le _
    resultWritten := fun i h => absurd h (Nat.not_lt_zero i) }

/-- An immediate completion with a legal, nonzero code. -/
theorem Inv.statusRefused (hi : Inv s) (hb : s.busy = false) {c : BitVec 3} (hc : c.toNat ≤ 5) (h0 : c ≠ 0) :
    Inv { s with outLen := 0, status := statusRefused c s.status } :=
  { hi with
    busyClean := fun h => absurd (hb.symm.trans h) Bool.false_ne_true
    codeLegal := hc
    errIsCode := ⟨fun _ => h0, fun _ => rfl⟩
    errIsDone := fun _ => rfl
    errByteIsInvalid := fun h => absurd rfl h
    errHidesOutput := fun _ => rfl
    resultFits := Nat.zero_le _
    resultWritten := fun i h => absurd h (Nat.not_lt_zero i) }

theorem Inv.opEffect (hi : Inv s) (hb : s.busy = false) (op : BitVec 2) : Inv (opEffect op s) := by
  rcases opEffect_cases op s with e | ⟨o, hn, e⟩ | e | e <;> rw [e]
  · exact hi
  · exact hi.acceptStart o hn
  · exact hi.statusRefused hb (c := codeLenOver) (by decide) (by decide)
  · exact hi.statusRefused hb (c := codeBadCmd) (by decide) (by decide)

/-! ### Transactions -/

theorem Inv.effect (hi : Inv s) (he : Effect s t) : Inv t := by
  cases he with
  | busError => exact hi.respondError
  | read v => exact hi.respondRead v
  | ignored => exact hi.respondWrite
  | dropped _ => exact hi.dropWrite.respondWrite
  | irqEn v => exact (hi.irqEnEffect v).respondWrite
  | inLen v hb => exact (hi.setInLen hb _).respondWrite
  | inBuf off l _ h4 hc hl => exact (hi.writeInBuf h4 hc hl).respondWrite
  | command clr op hb =>
    refine (Inv.opEffect ?_ ?_ op).respondWrite
    · split
      · exact hi.clearStatus hb
      · exact hi
    · split <;> exact hb

/-! ### The engine and reset -/

theorem Inv.completeOk (hi : Inv s) {out : List Byte} (h : out.length ≤ outCap s.cfg) : Inv (completeOk out s) := by
  have hlen : (BitVec.ofNat 24 out.length).toNat = out.length := by
    have := hi.validParams.outCap_le
    rw [BitVec.toNat_ofNat, Nat.mod_eq_of_lt (by omega)]
  exact
    { hi with
      outStoreWf := Memory.wf_writeAll out s.outStore 0 hi.outStoreWf
      outStoreMapped := Memory.below_writeAll out s.outStore ((Nat.zero_add _).trans_le h) hi.outStoreMapped
      runsInput := fun _ _ he => by cases he
      busyClean := fun hb => by cases hb
      codeLegal := by simp [statusDone]
      errIsCode := by simp [statusDone]
      errIsDone := by simp [statusDone]
      errByteIsInvalid := by simp [statusDone]
      errHidesOutput := by simp [statusDone]
      resultFits := by rw [completeOk_outLen, hlen]; exact h
      resultWritten := fun i hlt => by
        rw [completeOk_outLen, hlen] at hlt
        rw [completeOk_outStore, read?_writeAll_zero _ _ _ hlt]
        simpa using hlt }

theorem codeOf_legal (k : ErrKind) : (codeOf k).toNat ≤ 5 ∧ codeOf k ≠ 0 := by cases k <;> decide

theorem Inv.completeErr (hi : Inv s) {k : ErrKind} {b : Byte} (h : k = .invalidByte ∨ b = 0) :
    Inv (completeErr k b s) :=
  { hi with
    outStoreWf := rfl
    outStoreMapped := rfl
    runsInput := fun _ _ he => by cases he
    busyClean := fun hb => by cases hb
    codeLegal := (codeOf_legal k).1
    errIsCode := ⟨fun _ => (codeOf_legal k).2, fun _ => rfl⟩
    errIsDone := fun _ => rfl
    errByteIsInvalid := fun hb => by
      rcases h with rfl | rfl
      · rfl
      · exact absurd rfl hb
    errHidesOutput := fun _ => rfl
    resultFits := Nat.zero_le _
    resultWritten := fun i hlt => absurd hlt (Nat.not_lt_zero i) }

/-- A completion fits: the running length is at most `IN_CAP`, and `OUT_CAP` holds the text of `IN_CAP` bytes. -/
theorem Inv.complete (hi : Inv s) : Inv (complete s) := by
  unfold Machine.complete
  cases he : s.eng with
  | idle => exact hi
  | run op len =>
    have hfit := (hi.runsInput op len he).2
    simp only [completeRun]
    cases hc : codec op (message s len.toNat) with
    | ok out =>
      refine hi.completeOk ?_
      have := codec_length_le hc
      rw [message_length] at this
      unfold outCap
      omega
    | err k b => exact hi.completeErr (codec_err_byte hc)

theorem Inv.engineEdge (hi : Inv t) (before : State) : Inv (engineEdge before t) := by
  unfold Machine.engineEdge
  split
  · exact hi.complete
  · exact hi

/-- A reset edge gives the invariant to any state whose parameters and input buffer have their part of it: it takes the
rest to its reset value. -/
theorem inv_resetEdge (hcfg : Machine.validParams s.cfg = true) (hwf : Memory.wf s.inBuf = true)
    (hmapped : Memory.below s.cfg.inCap s.inBuf = true) : Inv (resetEdge s) where
  cfgValid := hcfg
  inBufWf := hwf
  inBufMapped := hmapped
  outStoreWf := rfl
  outStoreMapped := rfl
  runsInput := fun _ _ he => by cases he
  busyClean := fun hb => by cases hb
  codeLegal := Nat.zero_le _
  errIsCode := by simp [Status.reset]
  errIsDone := fun he => by cases he
  errByteIsInvalid := fun hb => absurd rfl hb
  errHidesOutput := fun _ => rfl
  resultFits := Nat.zero_le _
  resultWritten := fun i hlt => absurd hlt (Nat.not_lt_zero i)

theorem Inv.resetEdge (hi : Inv s) : Inv (resetEdge s) := inv_resetEdge hi.cfgValid hi.inBufWf hi.inBufMapped

theorem Inv.step (hi : Inv s) (h : step s = .next t) : Inv t := by
  rcases step_cases h with ⟨_, rfl⟩ | ⟨_, _, rfl⟩ | ⟨_, _, u, hu, rfl⟩
  · exact hi.takeInput.resetEdge
  · exact hi.takeInput.respondNothing.engineEdge s
  · exact (hi.takeInput.effect (exec_effect hi.cfgValid _ hu)).engineEdge s

end Inv

/-! ### What an engine's step leaves as it is -/

/-- The engine's step keeps whatever both of its outcomes keep. -/
theorem complete_field {α : Type} (f : State → α) (hok : ∀ out u, f (completeOk out u) = f u)
    (herr : ∀ k b u, f (completeErr k b u) = f u) (s : State) : f (complete s) = f s := by
  unfold complete
  cases s.eng with
  | idle => rfl
  | run op len =>
    simp only [completeRun]
    cases codec op (message s len.toNat) with
    | ok out => exact hok out s
    | err k b => exact herr k b s

/-- After its transaction, an edge keeps whatever the engine's step keeps. -/
theorem engineEdge_field {α : Type} (f : State → α) (h : ∀ u, f (complete u) = f u) (before after : State) :
    f (engineEdge before after) = f after := by
  unfold engineEdge
  split
  · exact h after
  · rfl

@[simp] theorem complete_cfg (s : State) : (complete s).cfg = s.cfg :=
  complete_field State.cfg (fun _ _ => rfl) (fun _ _ _ => rfl) s

@[simp] theorem complete_inBuf (s : State) : (complete s).inBuf = s.inBuf :=
  complete_field State.inBuf (fun _ _ => rfl) (fun _ _ _ => rfl) s

@[simp] theorem complete_inLen (s : State) : (complete s).inLen = s.inLen :=
  complete_field State.inLen (fun _ _ => rfl) (fun _ _ _ => rfl) s

@[simp] theorem complete_werr (s : State) : (complete s).status.werr = s.status.werr :=
  complete_field (·.status.werr) (fun _ _ => rfl) (fun _ _ _ => rfl) s

@[simp] theorem engineEdge_cfg (before after : State) : (engineEdge before after).cfg = after.cfg :=
  engineEdge_field State.cfg complete_cfg before after

@[simp] theorem engineEdge_inBuf (before after : State) : (engineEdge before after).inBuf = after.inBuf :=
  engineEdge_field State.inBuf complete_inBuf before after

@[simp] theorem engineEdge_werr (before after : State) :
    (engineEdge before after).status.werr = after.status.werr :=
  engineEdge_field (·.status.werr) complete_werr before after


theorem step_cfg {s t : State} (hv : validParams s.cfg = true) (h : step s = .next t) : t.cfg = s.cfg := by
  rcases step_cases h with ⟨_, rfl⟩ | ⟨_, _, rfl⟩ | ⟨_, _, u, hu, rfl⟩
  · rfl
  · simp
  · rw [engineEdge_cfg]
    obtain ⟨_, hcfg, _, _⟩ := (exec_effect (s := takeInput s) hv _ hu).keeps
    exact hcfg

/-- Settles O55: reset, every effect of a transaction and the completion keep each part. -/
theorem everyEdgeKeepsTheInvariant : Obligations.EveryEdgeKeepsTheInvariant :=
  fun _ _ hi h => ⟨hi.step h, step_cfg hi.cfgValid h⟩

/-- Settles O56: State.reset differs from a reset edge of itself in a counter that the invariant does not read. -/
theorem resetHasTheInvariant : Obligations.ResetHasTheInvariant :=
  have hcfg : validParams State.reset.cfg = true := by decide
  (inv_resetEdge hcfg rfl rfl).congr rfl rfl rfl rfl rfl rfl rfl

end Sys2Proof.Machine

/-! PROOFS (10_state.md, 43_host_commands.md R200-R207). What a read answers, and what an edge leaves as it is. -/

namespace Sys2Proof.Machine

/-! ### Reads -/

theorem exec_busRead_error {s : State} {a : Addr} (h : busError s.cfg a = true) :
    exec (.busRead a) s = .next (respondError s) := by
  simp [exec, execBusRead, h]

theorem exec_busRead_mapped {s : State} {a : Addr} (h : busError s.cfg a = false) :
    exec (.busRead a) s = .next (respondRead (readWord s a) s) := by
  simp [exec, execBusRead, h]

/-- A read without a bus error answers the word of its target. -/
theorem answeredRead_of_readWord {s : State} {a : Addr} {v : Word} (h : busError s.cfg a = false)
    (hv : readWord s a = v) : AnsweredRead (exec (.busRead a) s) s v := by
  rw [exec_busRead_mapped h, hv]
  rfl

theorem readWord_register {s : State} {a : Addr} (h : window s.cfg a = 0) :
    readWord s a = readRegister s (offset s.cfg a) := by
  simp [readWord, h]

theorem readWord_inBuf {s : State} {a : Addr} (h : window s.cfg a = 1) :
    readWord s a = bufferWord (inBufByte s) (offset s.cfg a) := by
  simp [readWord, h]

theorem readWord_outView {s : State} {a : Addr} (h : window s.cfg a = 2) :
    readWord s a = bufferWord (outView s) (offset s.cfg a) := by
  simp [readWord, h]

theorem bitWord_eq (b : Bool) : bitWord b = if b = true then 1 else 0 := by cases b <;> rfl

/-- Where no bus error is raised, the target is a register, or a word of window 1 or 2 (20_memory.md R67). -/
theorem target_of_not_busError {p : Params} {a : Addr} (h : busError p a = false) :
    (window p a = 0 ∧ registerOffset (offset p a) = true) ∨ window p a = 1 ∨ window p a = 2 := by
  have hlt : window p a < 4 := Nat.mod_lt _ (by decide)
  have hn : ¬busError p a = true := by simp [h]
  rw [busError_iff] at hn
  rw [registerOffset_iff]
  omega

/-- Settles O11: the word read is that of the register or of the four buffer bytes at the address. -/
theorem busReadReturnsTheTarget : Obligations.BusReadReturnsTheTarget := by
  intro s a
  refine ⟨fun h => exec_busRead_error h, fun h => ?_⟩
  have register : ∀ {v : Word} {o : Nat}, window s.cfg a = 0 → offset s.cfg a = o → readRegister s o = v →
      AnsweredRead (exec (.busRead a) s) s v := fun hw ho hv =>
    answeredRead_of_readWord h (by rw [readWord_register hw, ho, hv])
  refine ⟨fun hw ho => register hw ho rfl, fun hw ho => register hw ho rfl, fun hw ho => register hw ho rfl,
    fun hw ho => register hw ho rfl, fun hw ho => register hw ho rfl, fun hw ho => register hw ho (bitWord_eq s.ie),
    fun hw => answeredRead_of_readWord h (readWord_inBuf hw),
    fun hw => answeredRead_of_readWord h (readWord_outView hw), ?_⟩
  have htarget := target_of_not_busError h
  rwa [registerOffset_iff] at htarget

theorem laneByte_bufferWord (B : Nat → Byte) (off : Nat) {j : Nat} (hj : j < 4) :
    laneByte (bufferWord B off) j = B (off + j) := by
  obtain ⟨h0, h1, h2, h3⟩ := lanes_wordOfBytes (B off) (B (off + 1)) (B (off + 2)) (B (off + 3))
  match j, hj with
  | 0, _ => exact h0
  | 1, _ => exact h1
  | 2, _ => exact h2
  | 3, _ => exact h3

/-- Settles O15: lane `j` of the word read is the masked view at `off + j`. -/
theorem outputReadIsMasked : Obligations.OutputReadIsMasked := by
  intro s a j hj hw h4 hc
  have hw' : window s.cfg a = 2 := hw
  have hc' : offset s.cfg a < outCap s.cfg := hc
  have hb : busError s.cfg a = false := by
    rw [← Bool.not_eq_true, busError_iff]
    omega
  exact ⟨_, answeredRead_of_readWord hb (readWord_outView hw'), laneByte_bufferWord (outView s) _ hj⟩

/-! ### Responses: every transaction answers in one of three ways -/

theorem exec_response {s t : State} (i : Instr) (h : exec i s = .next t) :
    t = respondError s ∨ (∃ a, i = .busRead a ∧ t = respondRead (readWord s a) s) ∨ ∃ u, t = respondWrite u := by
  cases i with
  | busRead a =>
    cases h
    split
    · exact .inl rfl
    · exact .inr (.inl ⟨a, rfl, rfl⟩)
  | busWrite a v =>
    cases h
    split
    · exact .inl rfl
    · exact .inr (.inr ⟨_, rfl⟩)
  | inbufWrite off v =>
    cases h
    split
    · exact .inl rfl
    · exact .inr (.inr ⟨_, rfl⟩)
  | _ => cases h; exact .inr (.inr ⟨_, rfl⟩)

/-- Only `raise BusError` answers `bus_err = 1`. -/
theorem exec_busErr {s t : State} {i : Instr} (h : exec i s = .next t) (he : t.busErr = true) :
    t = respondError s := by
  rcases exec_response i h with ht | ⟨a, -, rfl⟩ | ⟨u, rfl⟩
  · exact ht
  · cases he
  · cases he

/-- A read changes nothing but the response. -/
theorem exec_busRead_irq {s t : State} {a : Addr} (h : exec (.busRead a) s = .next t) : t.irq = s.irq := by
  cases h
  split <;> rfl

/-! ### Edges of a running command -/

theorem rstN_of_not_atReset {s : State} (h : ¬atReset s) : (nextPins s).rstN = true := by
  simpa [atReset] using h

theorem step_atReset {s t : State} (hr : atReset s) (h : step s = .next t) : t = resetEdge (takeInput s) := by
  rw [step_reset hr] at h
  cases h
  rfl

theorem complete_eng (s : State) : (complete s).eng = .idle := by
  cases hb : s.busy with
  | false => rw [complete, busy_eq_false.mp hb]; exact busy_eq_false.mp hb
  | true => exact busy_eq_false.mp (complete_frame hb).1

/-- The engine's input is kept by every edge without reset. -/
theorem step_while_busy_inputs {s t : State} (hb : s.busy = true) (h : step s = .next t) (hr : ¬atReset s) :
    t.inBuf = s.inBuf ∧ t.inLen = s.inLen := by
  obtain ⟨u, rfl, _, hbuf, hlen, _⟩ := step_while_busy hb h (rstN_of_not_atReset hr)
  split
  · exact ⟨(complete_inBuf u).trans hbuf, (complete_inLen u).trans hlen⟩
  · exact ⟨hbuf, hlen⟩

/-- Settles O36: a write is dropped while BUSY, a completion reads its input only, and a reset keeps InBuf. -/
theorem engineInputIsStable : Obligations.EngineInputIsStable := by
  intro s t hb h
  by_cases hr : atReset s
  · rw [step_atReset hr h]
    exact ⟨rfl, fun hn => absurd hr hn, fun _ => ⟨rfl, rfl⟩⟩
  · obtain ⟨hbuf, hlen⟩ := step_while_busy_inputs hb h hr
    exact ⟨hbuf, fun _ => hlen, fun hn => absurd hn hr⟩

/-- Settles O37: no transaction changes ENG while BUSY, so only the engine's step makes it IDLE. -/
theorem noTransactionCancelsACommand : Obligations.NoTransactionCancelsACommand := by
  intro s t op len he hr h
  have hb : s.busy = true := busy_eq_true.mpr ⟨op, len, he⟩
  obtain ⟨u, rfl, heng, _, _, hout, hstore, _⟩ := step_while_busy hb h (rstN_of_not_atReset hr)
  refine ⟨fun hn => ?_, fun hd => ?_⟩
  · simp only [hn, Bool.false_eq_true, if_false]
    exact ⟨heng.trans he, hout, hstore⟩
  · rw [if_pos hd]
    exact complete_eng u

/-! ### Completion depends on the command only -/

theorem message_eq_of_bytes {s t : State} {n : Nat} (h : ∀ i, i < n → inBufByte s i = inBufByte t i) :
    message s n = message t n :=
  List.map_congr_left fun i hi => h i (List.mem_range.mp hi)

/-- Settles O39: the bytes of the message fix the codec's answer, which is all a completion shows. -/
theorem resultDependsOnTheCommandOnly : Obligations.ResultDependsOnTheCommandOnly := by
  intro s s' op len he he' hbytes
  simp only [complete, he, he', completeRun, message_eq_of_bytes hbytes]
  cases codec op (message s' len.toNat) with
  | ok out => exact ⟨rfl, ⟨rfl, rfl, rfl, rfl⟩, fun i => by rw [outView_completeOk, outView_completeOk]⟩
  | err k b => exact ⟨rfl, ⟨rfl, rfl, rfl, rfl⟩, fun i => by rw [outView_completeErr, outView_completeErr]⟩

/-! ### The interrupt line -/

theorem complete_irq {s : State} (hb : s.busy = true) : (complete s).irq = s.ie := by
  obtain ⟨_, hdone, _, _, _, _, hie, _⟩ := complete_frame hb
  simp [State.irq, hdone, hie]

/-- Settles O54: a bus error and a read keep every field but the response, and a running command keeps DONE. -/
theorem interruptLineFollowsDone : Obligations.InterruptLineFollowsDone := by
  intro s t i
  refine ⟨by simp [State.irq], complete_irq, fun h he => ?_, fun h hb hie => ?_, ?_⟩
  · rw [exec_busErr h he]
    rfl
  · obtain ⟨_, _, _, _, _, hdone⟩ := exec_while_busy i hb h
    exact irq_congr hdone hie
  · rintro a rfl h
    exact exec_busRead_irq h

/-! ### WERR -/

theorem opEffect_werr (op : BitVec 2) (s : State) : (opEffect op s).status.werr = s.status.werr := by
  rcases opEffect_cases op s with e | ⟨o, _, e⟩ | e | e <;> rw [e] <;> rfl

/-- While BUSY a transaction leaves STATUS as it is, or drops a write and sets WERR (43_host_commands.md R205). -/
theorem exec_status_while_busy {s t : State} (i : Instr) (hb : s.busy = true) (h : exec i s = .next t) :
    t.status = s.status ∨ t.status = statusDropped s.status := by
  have hdrop : ∀ f, (unlessBusy f s).status = statusDropped s.status := fun f => by rw [unlessBusy_of_busy hb]; rfl
  cases i with
  | busRead a => cases h; left; split <;> rfl
  | busWrite a v =>
    cases h
    split
    · exact .inl rfl
    · simp only [respondWrite_status, writeEffect]
      split_ifs
      · exact .inr (hdrop _)
      · exact .inr (hdrop _)
      · exact .inl rfl
      · exact .inl rfl
      · exact .inr (hdrop _)
      · exact .inl rfl
  | irqEnWrite v => cases h; exact .inl rfl
  | inbufWrite off v =>
    cases h
    split
    · exact .inl rfl
    · exact .inr (hdrop _)
  | _ => cases h; exact .inr (hdrop _)

theorem exec_werr_while_busy {s t : State} (i : Instr) (hb : s.busy = true) (h : exec i s = .next t)
    (hw : s.status.werr = true) : t.status.werr = true := by
  rcases exec_status_while_busy i hb h with e | e <;> rw [e]
  · exact hw
  · rfl

/-- While idle only a CTRL write with CLR clears WERR. -/
theorem exec_werr_while_idle {s t : State} {we : Bool} {a : Addr} {d : Word} (hb : s.busy = false)
    (h : exec (decodeBus s.cfg we a d) s = .next t) (hw : s.status.werr = true) (ht : t.status.werr = false) :
    we = true ∧ portAddr s.cfg a = 0x004 ∧ d.toNat / 256 % 2 = 1 := by
  rcases exec_while_idle hb h with ⟨e, _⟩ | ⟨hwe, ha, rfl⟩
  · rw [e, hw] at ht
    cases ht
  · refine ⟨hwe, ha, ?_⟩
    rw [respondWrite_status, opEffect_werr] at ht
    cases hclr : ctrlClr d with
    | true => simpa [ctrlClr_eq] using hclr
    | false =>
      rw [hclr] at ht
      exact absurd (hw.symm.trans ht) Bool.false_ne_true.symm

/-- Settles O57: only a reset and an idle CLR write a 0 to WERR. -/
theorem onlyClrAndResetClearWerr : Obligations.OnlyClrAndResetClearWerr := by
  intro s t hw h ht
  rcases step_cases h with ⟨hr, _⟩ | ⟨_, _, rfl⟩ | ⟨hr, hreq, u, hu, rfl⟩
  · exact .inl hr
  · rw [engineEdge_werr] at ht
    exact absurd (hw.symm.trans ht) Bool.false_ne_true.symm
  · rw [engineEdge_werr] at ht
    right
    cases hb : s.busy with
    | true => exact absurd ((exec_werr_while_busy (s := takeInput s) _ hb hu hw).symm.trans ht) Bool.false_ne_true.symm
    | false =>
      obtain ⟨hwe, ha, hclr⟩ := exec_werr_while_idle (s := takeInput s) hb hu hw ht
      exact ⟨rfl, _, ⟨hr, hreq, hwe, ha, rfl⟩, hclr⟩

/-! ### InBuf -/

/-- The offset in a window, taken as an operand, is its own offset. -/
theorem ValidParams.offset_idem {p : Params} (h : ValidParams p) (a : Addr) :
    offset p (BitVec.ofNat 24 (offset p a)) = offset p a := by
  have hlt : offset p a < 2 ^ p.w := Nat.mod_lt _ (Nat.two_pow_pos _)
  have := h.size_high
  rw [offset, BitVec.toNat_ofNat, Nat.mod_eq_of_lt (a := offset p a) (by omega), Nat.mod_eq_of_lt hlt]

/-- The row that a write decodes to means what BUS_WRITE means at the write's offset (30_encoding.md R98). -/
theorem exec_decodeWrite {s : State} (hp : ValidParams s.cfg) {a : Addr} (ha : a.toNat < 2 ^ (s.cfg.w + 2))
    (v : Word) : exec (decodeWrite s.cfg a v) s = exec (.busWrite a v) s := by
  have register : ∀ b : Addr, b.toNat < 32 → b.toNat % 4 = 0 → registerOffset b.toNat = true →
      exec (.busWrite b v) s = .next (respondWrite (writeEffect b v s)) := fun b hb h4 hreg => by
    simp [exec, execBusWrite, busError_register hp.wLow b hb h4 hreg]
  have small := fun b hb => small_addr hp.wLow b hb
  unfold decodeWrite
  split_ifs with h1 h2 h3 h4
  · subst h1
    rw [register _ (by decide) (by decide) (by decide)]
    simp [writeEffect, small 0x004#24 (by decide), exec, execCtrlWrite]
  · subst h2
    rw [register _ (by decide) (by decide) (by decide)]
    simp [writeEffect, small 0x00C#24 (by decide), exec, execInLenWrite]
  · subst h3
    rw [register _ (by decide) (by decide) (by decide)]
    simp [writeEffect, small 0x014#24 (by decide), exec, execIrqEnWrite]
  · have hw : window s.cfg a = 1 := by
      simp only [refinedWrite, Bool.or_eq_true, beq_iff_eq, Bool.and_eq_true] at h4
      tauto
    simp [exec, execInbufWrite, execBusWrite, hp.inWindow_offset a ha hw, hp.offset_idem a, writeEffect, hw]
  · rfl

@[simp] theorem ctrlEffect_inBuf (v : Word) (s : State) : (ctrlEffect v s).inBuf = s.inBuf := by
  unfold ctrlEffect unlessBusy
  split
  · rfl
  · obtain ⟨_, _, _, _, hbuf⟩ := opEffect_keeps (ctrlOp v) (if ctrlClr v then clearStatus s else s)
    rw [hbuf]
    split <;> rfl

@[simp] theorem inLenEffect_inBuf (v : Word) (s : State) : (inLenEffect v s).inBuf = s.inBuf := by
  unfold inLenEffect unlessBusy
  split <;> rfl

theorem inbufEffect_inBuf_of_busy {s : State} (hb : s.busy = true) (off : Nat) (v : Word) :
    (inbufEffect off v s).inBuf = s.inBuf := by
  rw [inbufEffect, unlessBusy_of_busy hb]
  rfl

/-- A write changes InBuf only while idle and in window 1. -/
theorem writeEffect_inBuf {a : Addr} {v : Word} {s : State} (h : (writeEffect a v s).inBuf ≠ s.inBuf) :
    s.busy = false ∧ window s.cfg a = 1 := by
  unfold writeEffect at h
  split_ifs at h with h0 h1 h2 h3 h4
  · simp at h
  · simp at h
  · simp at h
  · exact absurd rfl h
  · refine ⟨?_, h4⟩
    rw [← Bool.not_eq_true]
    exact fun hb => h (inbufEffect_inBuf_of_busy hb _ _)
  · exact absurd rfl h

theorem exec_busWrite_inBuf {s t : State} {a : Addr} {v : Word} (h : exec (.busWrite a v) s = .next t)
    (hne : t.inBuf ≠ s.inBuf) :
    s.busy = false ∧ window s.cfg a = 1 ∧ a.toNat % 4 = 0 ∧ offset s.cfg a < s.cfg.inCap := by
  cases h
  split at hne
  · exact absurd rfl hne
  · next hmapped =>
    obtain ⟨hb, hw⟩ := writeEffect_inBuf hne
    rw [busError_iff] at hmapped
    exact ⟨hb, hw, by omega⟩

theorem exec_busRead_inBuf {s t : State} {a : Addr} (h : exec (.busRead a) s = .next t) : t.inBuf = s.inBuf := by
  cases h
  split <;> rfl

/-- A presented transaction that changes InBuf is a write, to its port offset. -/
theorem exec_decodeBus_inBuf {s t : State} (hp : ValidParams s.cfg) {we : Bool} {a : Addr} {d : Word}
    (h : exec (decodeBus s.cfg we a d) s = .next t) (hne : t.inBuf ≠ s.inBuf) :
    we = true ∧ exec (.busWrite (portAddr s.cfg a) d) s = .next t := by
  cases we with
  | false => exact absurd (exec_busRead_inBuf h) hne
  | true => exact ⟨rfl, (exec_decodeWrite hp (portAddr_lt s.cfg a) d).symm.trans h⟩

/-- Settles O60: a reset, a completion and every other transaction keep InBuf. -/
theorem onlyAcceptedWritesChangeInBuf : Obligations.OnlyAcceptedWritesChangeInBuf := by
  intro s t hv h hne
  rcases step_cases h with ⟨_, rfl⟩ | ⟨_, _, rfl⟩ | ⟨hr, hreq, u, hu, rfl⟩
  · exact absurd rfl hne
  · simp at hne
  · rw [engineEdge_inBuf] at hne
    obtain ⟨hwe, hwrite⟩ := exec_decodeBus_inBuf (s := takeInput s) (ValidParams.of hv) hu hne
    obtain ⟨hb, hw, h4, hc⟩ := exec_busWrite_inBuf hwrite hne
    exact ⟨hb, _, _, ⟨hr, hreq, hwe, rfl, rfl⟩, hw, h4, hc⟩

/-! ### Reset -/

/-- Settles O9: the reset values; OUT_LEN is 0, so the view is 0 whatever OutStore holds. -/
theorem stateAfterReset : Obligations.StateAfterReset := by
  refine ⟨rfl, rfl, rfl, by decide, rfl, rfl, rfl, rfl, fun i => ?_⟩
  simp [outView, State.reset]

/-! ### Alphabet -/

/-- An index found, counting from `n`, is a place where the byte stands. -/
theorem getElem?_of_indexFrom {c : Byte} {t : List Byte} {n k : Nat} (h : indexFrom c t n = some k) :
    n ≤ k ∧ t[k - n]? = some c := by
  induction t generalizing n with
  | nil => cases h
  | cons a t ih =>
    rw [indexFrom] at h
    split at h
    · next hac =>
      cases h
      simp [hac]
    · obtain ⟨hle, hget⟩ := ih h
      have hk : k - n = (k - (n + 1)) + 1 := by omega
      rw [hk, List.getElem?_cons_succ]
      exact ⟨by omega, hget⟩

/-- Every valid byte is the character of its sextet. -/
theorem i2c_c2i {c : Byte} (h : (c2i c).1 = true) : i2c (c2i c).2 = c := by
  unfold c2i at h ⊢
  cases hk : indexFrom c alphaTable 0 with
  | none => simp [hk] at h
  | some k =>
    obtain ⟨-, hget⟩ := getElem?_of_indexFrom hk
    obtain ⟨hlt, -⟩ := List.getElem?_eq_some_iff.mp hget
    have hmod : k % 64 = k := Nat.mod_eq_of_lt hlt
    simpa [i2c, hmod, List.getD_eq_getElem?_getD] using congrArg (·.getD 0) hget

theorem i2c_injective {i j : Sextet} (h : i2c i = i2c j) : i = j := by
  have hij : c2i (i2c i) = c2i (i2c j) := by rw [h]
  simpa using hij

/-- Settles O40: I2C and C2I are inverse in both directions. -/
theorem alphabetIsABijection : Obligations.AlphabetIsABijection := by
  refine ⟨c2i_i2c, fun c i h => ?_, fun i j => i2c_injective, fun c => ⟨?_, fun h => ⟨_, i2c_c2i h⟩⟩⟩
  · have hc := i2c_c2i (c := c) (by rw [h])
    rwa [h] at hc
  · rintro ⟨i, rfl⟩
    rw [c2i_i2c]

/-- Settles O41: the table's index of each of the 256 bytes is the closed form. -/
theorem charToIndexClosedForm : Obligations.CharToIndexClosedForm := by
  unfold Obligations.CharToIndexClosedForm
  decide

end Sys2Proof.Machine

/-! PROOFS (20_memory.md). The bus: when a transaction is refused, what a write does to the block, and how an edge
orders its transaction and the engine's step. -/

namespace Sys2Proof.Machine

/-! ### Bus errors (R67) -/

theorem exec_busWrite_error {s : State} {a : Addr} (v : Word) (h : busError s.cfg a = true) :
    exec (.busWrite a v) s = .next (respondError s) := by
  simp [exec, execBusWrite, h]

theorem exec_busWrite_mapped {s : State} {a : Addr} (v : Word) (h : busError s.cfg a = false) :
    exec (.busWrite a v) s = .next (respondWrite (writeEffect a v s)) := by
  simp [exec, execBusWrite, h]

theorem exec_inbufWrite_error {s : State} {off : Addr} (v : Word) (h : busError s.cfg (inWindow s.cfg off) = true) :
    exec (.inbufWrite off v) s = .next (respondError s) := by
  simp [exec, execInbufWrite, h]

/-- Settles O13: the five conditions are `busError`, which alone chooses between the error and the taken response. -/
theorem busErrorExactlyOnTheFiveConditions : Obligations.BusErrorExactlyOnTheFiveConditions := by
  intro s a v
  refine ⟨fun hbad => ?_, fun hgood => ?_⟩
  · have h : busError s.cfg a = true := (busError_iff s.cfg a).mpr hbad
    exact ⟨exec_busRead_error h, exec_busWrite_error v h⟩
  · have h : busError s.cfg a = false := by
      rw [← Bool.not_eq_true, busError_iff]
      exact hgood
    exact ⟨⟨_, exec_busRead_mapped h, rfl⟩, _, exec_busWrite_mapped v h, rfl⟩

/-- Settles O14: the row checks its window-1 offset, which is the operand itself when it is inside one window. -/
theorem inbufWriteBusError : Obligations.InbufWriteBusError := by
  intro s off v hv hlt hbad
  refine exec_inbufWrite_error v ?_
  rw [(ValidParams.of hv).busError_inWindow, Nat.mod_eq_of_lt hlt]
  simpa using hbad

/-! ### Reads have no side effect (R70) -/

/-- What a read answers does not depend on the response of the edge before. -/
theorem exec_busRead_respondRead (b : Addr) (v : Word) (s : State) :
    exec (.busRead b) (respondRead v s) = exec (.busRead b) s := rfl

theorem exec_busRead_respondError (b : Addr) (s : State) :
    exec (.busRead b) (respondError s) = exec (.busRead b) s := rfl

/-- Settles O16: a read changes the response only, and no read depends on it. -/
theorem readsAreIdempotent : Obligations.ReadsAreIdempotent := by
  intro s a b
  cases h : busError s.cfg a with
  | true => exact ⟨_, exec_busRead_error h, rfl, exec_busRead_respondError b s⟩
  | false => exact ⟨_, exec_busRead_mapped h, rfl, exec_busRead_respondRead b _ s⟩

/-! ### Writes to window 1 (R65, R69) -/

/-- The four bytes of a bus word in the order of their offsets (R65). -/
def laneBytes (v : Word) : List Byte := [laneByte v 0, laneByte v 1, laneByte v 2, laneByte v 3]

theorem laneBytes_getElem? (v : Word) {j : Nat} (hj : j < 4) : (laneBytes v)[j]? = some (laneByte v j) :=
  match j, hj with
  | 0, _ => rfl
  | 1, _ => rfl
  | 2, _ => rfl
  | 3, _ => rfl

theorem laneByte_toNat (v : Word) (j : Nat) : (laneByte v j).toNat = v.toNat / 2 ^ (8 * j) % 256 := by
  simp [laneByte, Nat.shiftRight_eq_div_pow]

theorem Memory.read?_writeAll_laneBytes (m : Memory) (off : Nat) (v : Word) {j : Nat} (hj : j < 4) :
    (m.writeAll off (laneBytes v)).read? (off + j) = some (laneByte v j) := by
  have hin : off ≤ off + j ∧ off + j < off + (laneBytes v).length := by simp [laneBytes, hj]
  rw [Memory.read?_writeAll, if_pos hin, Nat.add_sub_cancel_left, laneBytes_getElem? v hj]

theorem Memory.read?_writeAll_laneBytes_ne (m : Memory) (v : Word) {off i : Nat} (hi : i < off ∨ off + 4 ≤ i) :
    (m.writeAll off (laneBytes v)).read? i = m.read? i := by
  have hout : ¬(off ≤ i ∧ i < off + (laneBytes v).length) := by simp only [laneBytes, List.length]; omega
  rw [Memory.read?_writeAll, if_neg hout]

/-- `s` with the word `v` stored at offset `off` of `InBuf` (43_host_commands.md R204). -/
def storeWord (off : Nat) (v : Word) (s : State) : State :=
  { s with inBuf := s.inBuf.writeAll off (laneBytes v) }

/-- INBUF_WRITE at an aligned mapped offset while idle stores its word. -/
theorem exec_inbufWrite_idle {s : State} (hp : ValidParams s.cfg) (hb : s.busy = false) {off : Addr}
    (h4 : off.toNat % 4 = 0) (hc : off.toNat < s.cfg.inCap) (v : Word) :
    exec (.inbufWrite off v) s = .next (respondWrite (storeWord off.toNat v s)) := by
  obtain ⟨hmapped, hoff⟩ := hp.mapped_inWindow h4 hc
  simp only [exec, execInbufWrite, hmapped, hoff, inbufEffect, unlessBusy_of_idle hb]
  rfl

theorem inBufByte_storeWord (off : Nat) (v : Word) (s : State) {j : Nat} (hj : j < 4) :
    inBufByte (storeWord off v s) (off + j) = laneByte v j := by
  simp [inBufByte, storeWord, Memory.read?_writeAll_laneBytes _ off v hj]

theorem inBufByte_storeWord_ne (v : Word) (s : State) {off i : Nat} (hi : i < off ∨ off + 4 ≤ i) :
    inBufByte (storeWord off v s) i = inBufByte s i := by
  simp [inBufByte, storeWord, Memory.read?_writeAll_laneBytes_ne _ v hi]

/-- The word at the offset of a stored word is that word. -/
theorem bufferWord_storeWord (off : Nat) (v : Word) (s : State) :
    bufferWord (inBufByte (storeWord off v s)) off = v := by
  have lane := fun j (hj : j < 4) => inBufByte_storeWord off v s hj
  have h0 : inBufByte (storeWord off v s) off = laneByte v 0 := lane 0 (by decide)
  rw [bufferWord, h0, lane 1 (by decide), lane 2 (by decide), lane 3 (by decide), wordOfBytes_lanes]

/-- A read of an aligned mapped offset of window 1 answers the word that `InBuf` holds there. -/
theorem answeredRead_inWindow {s : State} (hp : ValidParams s.cfg) {off : Addr} (h4 : off.toNat % 4 = 0)
    (hc : off.toNat < s.cfg.inCap) :
    AnsweredRead (exec (.busRead (inWindow s.cfg off)) s) s (bufferWord (inBufByte s) off.toNat) := by
  obtain ⟨hmapped, hoff⟩ := hp.mapped_inWindow h4 hc
  refine answeredRead_of_readWord hmapped ?_
  rw [readWord_inBuf (hp.window_inWindow off), hp.offset_inWindow]
  exact congrArg _ hoff

/-- Settles O21: the write stores the word's lanes, and the view depends on no byte of `InBuf`. -/
theorem inbufWriteStoresFourBytes : Obligations.InbufWriteStoresFourBytes := by
  intro s off v hv hb h4 hc
  rw [exec_inbufWrite_idle (ValidParams.of hv) hb h4 hc v]
  exact ⟨_, rfl, takenWrite_respondWrite _,
    fun j hj => Memory.read?_writeAll_laneBytes _ _ v hj,
    fun i hi => ⟨Memory.read?_writeAll_laneBytes_ne _ v hi, inBufByte_storeWord_ne v s hi⟩,
    fun i => outView_congr rfl rfl rfl rfl i⟩

/-- Settles O17: byte `j` of the stored word is lane `j`, and the read puts the lanes together again. -/
theorem bufferWordIsLittleEndian : Obligations.BufferWordIsLittleEndian := by
  intro s off v hv hb h4 hc
  have hp := ValidParams.of hv
  have hlt : off.toNat < 2 ^ s.cfg.w := Nat.lt_of_lt_of_le hc hp.inCap_le
  refine ⟨_, exec_inbufWrite_idle hp hb h4 hc v, fun j hj => ?_, ?_⟩
  · rw [← laneByte_toNat, ← inBufByte_storeWord off.toNat v s hj]
    rfl
  · have hread := answeredRead_inWindow (s := respondWrite (storeWord off.toNat v s)) hp h4 hc
    have hword : bufferWord (inBufByte (respondWrite (storeWord off.toNat v s))) off.toNat = v :=
      bufferWord_storeWord off.toNat v s
    have haddr : inWindow s.cfg off = BitVec.ofNat 24 (2 ^ s.cfg.w + off.toNat) := by
      rw [inWindow, Nat.mod_eq_of_lt hlt]
    rw [hword] at hread
    rw [← haddr]
    exact hread

/-! ### Read-only locations (R68) -/

theorem writeEffect_readOnly {s : State} {a : Addr} (v : Word)
    (h : (window s.cfg a = 0 ∧ offset s.cfg a ≠ 0x004 ∧ offset s.cfg a ≠ 0x00C ∧ offset s.cfg a ≠ 0x014) ∨
      window s.cfg a = 2) : writeEffect a v s = s := by
  rcases h with ⟨hw, h1, h2, h3⟩ | hw
  · simp [writeEffect, hw, h1, h2, h3]
  · simp [writeEffect, hw]

/-- The read-only locations raise no bus error, and no register with a write effect is among them. -/
theorem readOnly_target {p : Params} (hw5 : 5 ≤ p.w) {a : Addr}
    (ha : a.toNat = 0x000 ∨ a.toNat = 0x008 ∨ a.toNat = 0x010 ∨
      (window p a = 2 ∧ a.toNat % 4 = 0 ∧ offset p a < outCap p)) :
    busError p a = false ∧
      ((window p a = 0 ∧ offset p a ≠ 0x004 ∧ offset p a ≠ 0x00C ∧ offset p a ≠ 0x014) ∨ window p a = 2) := by
  rw [← Bool.not_eq_true, busError_iff]
  by_cases hsmall : a.toNat = 0x000 ∨ a.toNat = 0x008 ∨ a.toNat = 0x010
  · obtain ⟨hwin, hoff⟩ := small_addr hw5 a (by omega)
    omega
  · omega

theorem readWord_ctrl {s : State} (hw5 : 5 ≤ s.cfg.w) : readWord s 0x004 = 0 := by
  obtain ⟨hwin, hoff⟩ := small_addr hw5 0x004 (by decide)
  rw [readWord_register hwin, hoff]
  rfl

/-- Settles O23: no read-only location raises a bus error or has an effect, and CTRL reads 0. -/
theorem readOnlyWritesAreIgnored : Obligations.ReadOnlyWritesAreIgnored := by
  intro s a v ha hw5
  obtain ⟨hmapped, htarget⟩ := readOnly_target hw5 ha
  refine ⟨?_, answeredRead_of_readWord (busError_register hw5 _ (by decide) (by decide) rfl) (readWord_ctrl hw5)⟩
  rw [exec_busWrite_mapped v hmapped, writeEffect_readOnly v htarget]
  exact takenWrite_respondWrite s

/-! ### The clock edge (R62, R73) -/

/-- The engine completes at an edge if its step falls there and it was running before. -/
theorem engineEdge_eq (before after : State) : engineEdge before after =
    if (nextPins before).engine = true ∧ before.busy = true then complete after else after := by
  simp [engineEdge]

/-- An edge that presents a transaction, by the next state of its instruction. -/
theorem step_of_exec {s u : State} (hr : (nextPins s).rstN = true) (hreq : (nextPins s).req = true)
    (hu : exec (decodeBus s.cfg (nextPins s).we (nextPins s).addr (nextPins s).wdata) (takeInput s) = .next u) :
    step s = .next (engineEdge s u) := by
  rw [step_transaction hr hreq, hu]

/-- Settles O5: the edge's transaction is the first listed one. -/
theorem stepRunsThePresentedTransaction : Obligations.StepRunsThePresentedTransaction := by
  intro s c rest h hr hreq
  obtain ⟨rfl, htake⟩ := nextPins_cons h
  rw [← htake]
  obtain ⟨u, hu⟩ := exec_next (decodeBus s.cfg (nextPins s).we (nextPins s).addr (nextPins s).wdata) (takeInput s)
  rw [step_of_exec hr hreq hu, hu, engineEdge_eq]

/-- A command word's row means what CTRL_WRITE of the word means (30_encoding.md R90, 43_host_commands.md R208). -/
theorem exec_decodeCtrl (v : Word) (s : State) : exec (decodeCtrl v) s = exec (.ctrlWrite v) s := by
  cases hclr : ctrlClr v with
  | true => simp [decodeCtrl, hclr, exec, execClr, execCtrlWrite, ctrlEffect]
  | false =>
    rcases ctrlOp_cases v with hop | hop | hop | hop
    · simp [decodeCtrl, hclr, hop, exec, execCmdNone, execCtrlWrite, ctrlEffect, opEffect, unlessBusy]
    · simp [decodeCtrl, hclr, hop, exec, execCmdEncode, execCtrlWrite, ctrlEffect, opEffect, unlessBusy]
    · simp [decodeCtrl, hclr, hop, exec, execCmdDecode, execCtrlWrite, ctrlEffect, opEffect, unlessBusy]
    · simp [decodeCtrl, hclr, hop, exec, execCmdRsvd, execCtrlWrite, ctrlEffect, opEffect, unlessBusy]

theorem decodeBus_ctrl {p : Params} {a : Addr} (h : portAddr p a = 0x004) (v : Word) :
    decodeBus p true a v = .ctrlWrite v := by
  simp [decodeBus, decodeWrite, h]

/-- Settles O6: a write at port offset 0x004 is a CTRL_WRITE, which means its command word's row. -/
theorem stepRunsThePresentedCommand : Obligations.StepRunsThePresentedCommand := by
  intro s c rest h hr hreq hwe ha
  rw [stepRunsThePresentedTransaction s c rest h hr hreq, hwe, decodeBus_ctrl ha, exec_decodeCtrl]

/-- Settles O7: the response is 0, the engine's step follows; an empty schedule presents nothing. -/
theorem edgeWithoutTransactionAnswersZero : Obligations.EdgeWithoutTransactionAnswersZero := by
  intro s
  refine ⟨fun hr hreq => ⟨_, rfl, ?_⟩, fun h => ?_⟩
  · rw [step_quiet hr hreq, engineEdge_eq]
    rfl
  · rw [nextPins_nil h]
    exact ⟨rfl, rfl, rfl⟩

/-! ### The transaction before the completion (R73) -/

/-- A write to CTRL, IN_LEN or window 1 is dropped while BUSY (43_host_commands.md R205). -/
theorem writeEffect_of_busy {s : State} (hb : s.busy = true) {a : Addr} (v : Word)
    (h : (window s.cfg a = 0 ∧ (offset s.cfg a = 0x004 ∨ offset s.cfg a = 0x00C)) ∨ window s.cfg a = 1) :
    writeEffect a v s = dropWrite s := by
  rcases h with ⟨hw, ho | ho⟩ | hw
  · simp [writeEffect, hw, ho, ctrlEffect, unlessBusy_of_busy hb]
  · simp [writeEffect, hw, ho, inLenEffect, unlessBusy_of_busy hb]
  · simp [writeEffect, hw, inbufEffect, unlessBusy_of_busy hb]

/-- The instruction of a presented write means BUS_WRITE at its port offset. -/
theorem exec_presentsWrite {s : State} (hp : ValidParams s.cfg) {a : Addr} {v : Word} (h : presentsWrite s a v) :
    exec (decodeBus s.cfg (nextPins s).we (nextPins s).addr (nextPins s).wdata) (takeInput s) =
      exec (.busWrite a v) (takeInput s) := by
  obtain ⟨_, _, hwe, rfl, rfl⟩ := h
  rw [hwe]
  exact exec_decodeWrite (s := takeInput s) hp (portAddr_lt s.cfg _) _

/-- The edge of a presented write that raises no bus error. -/
theorem step_presentsWrite {s t : State} (hp : ValidParams s.cfg) {a : Addr} {v : Word} (h : presentsWrite s a v)
    (hmapped : busError s.cfg a = false) (ht : step s = .next t) :
    t = engineEdge s (respondWrite (writeEffect a v (takeInput s))) := by
  have hu := (exec_presentsWrite hp h).trans (exec_busWrite_mapped (s := takeInput s) v hmapped)
  obtain ⟨hr, hreq, _⟩ := h
  rw [step_of_exec hr hreq hu] at ht
  cases ht
  rfl

/-- Where a write is dropped while BUSY, CTRL and IN_LEN being given by their port offsets. -/
theorem droppedTarget_of_portOffset {p : Params} (hp : ValidParams p) {a : Addr}
    (h : a = 0x004 ∨ a = 0x00C ∨ window p a = 1) :
    (window p a = 0 ∧ (offset p a = 0x004 ∨ offset p a = 0x00C)) ∨ window p a = 1 := by
  rcases h with rfl | rfl | hw
  · obtain ⟨hwin, hoff⟩ := small_addr hp.wLow 0x004 (by decide)
    exact .inl ⟨hwin, .inl hoff⟩
  · obtain ⟨hwin, hoff⟩ := small_addr hp.wLow 0x00C (by decide)
    exact .inl ⟨hwin, .inr hoff⟩
  · exact .inr hw

/-- Settles O35: an idle block has no completion due, and a running one drops the write before it completes. -/
theorem transactionIsOrderedBeforeCompletion : Obligations.TransactionIsOrderedBeforeCompletion := by
  intro s t hv hr h
  have hp := ValidParams.of hv
  refine ⟨fun hb hreq => ?_, fun hb heng => ?_, fun a v hb hw hmapped ha => ?_⟩
  · obtain ⟨u, hu⟩ := exec_next (decodeBus s.cfg (nextPins s).we (nextPins s).addr (nextPins s).wdata) (takeInput s)
    rw [hu, ← h, step_of_exec hr hreq hu, engineEdge_of_idle hb]
  · obtain ⟨u, rfl, hrun, _⟩ := step_while_busy hb h hr
    obtain ⟨hidle, hdone, _⟩ := complete_frame ((busy_congr hrun).trans hb)
    rw [if_pos heng]
    exact ⟨hidle, hdone⟩
  · refine ⟨?_, step_while_busy_inputs hb h (by simp [atReset, hr])⟩
    rw [step_presentsWrite hp hw hmapped h, engineEdge_werr,
      writeEffect_of_busy (s := takeInput s) hb v (droppedTarget_of_portOffset hp ha)]
    rfl

/-! ### BUSY or DONE after a start -/

/-- The block runs a command, or shows the completion of one. -/
def busyOrDone (s : State) : Prop := s.busy = true ∨ s.status.done = true

theorem start_busyOrDone (op : CodecOp) (s : State) : busyOrDone (start op s) := by
  unfold start
  split
  · exact .inr rfl
  · exact .inl rfl

/-- Every `OP` but 0 starts a command or completes at once (43_host_commands.md R212-R214). -/
theorem opEffect_busyOrDone {op : BitVec 2} (h : op ≠ 0#2) (s : State) : busyOrDone (opEffect op s) := by
  rw [opEffect, if_neg h]
  split_ifs
  · exact start_busyOrDone .encode s
  · exact start_busyOrDone .decode s
  · exact .inr rfl

/-- A command word other than CLR with `OP = 0` leaves a completed command completed or starts another. -/
theorem ctrlWord_busyOrDone {s : State} {v : Word} (hd : s.status.done = true)
    (h : ¬(v.toNat / 256 % 2 = 1 ∧ v.toNat % 4 = 0)) :
    busyOrDone (opEffect (ctrlOp v) (if ctrlClr v then clearStatus s else s)) := by
  by_cases hop : ctrlOp v = 0#2
  · have h0 : v.toNat % 4 = 0 := by rw [← ctrlOp_toNat, hop]; rfl
    have hclr : ctrlClr v = false := by simpa [ctrlClr_eq, h0] using h
    rw [hop, hclr]
    exact .inr hd
  · exact opEffect_busyOrDone hop _

/-- An edge that meets a running command leaves it running or completes it. -/
theorem step_busyOrDone_of_busy {s t : State} (hb : s.busy = true) (h : step s = .next t) (hr : ¬atReset s) :
    busyOrDone t := by
  obtain ⟨u, rfl, heng, _⟩ := step_while_busy hb h (rstN_of_not_atReset hr)
  have hub : u.busy = true := (busy_congr heng).trans hb
  split
  · obtain ⟨_, hdone, _⟩ := complete_frame hub
    exact .inr hdone
  · exact .inl hub

/-- Settles O59: a running command completes or goes on, and while idle only a CTRL write touches DONE. -/
theorem busyOrDoneAfterAStart : Obligations.BusyOrDoneAfterAStart := by
  intro s t _ hs h hr hclr
  cases hb : s.busy with
  | true => exact step_busyOrDone_of_busy hb h hr
  | false =>
    have hd : s.status.done = true := by simpa [hb] using hs
    rcases step_cases h with ⟨hrst, _⟩ | ⟨_, _, rfl⟩ | ⟨hrst, hreq, u, hu, rfl⟩
    · exact absurd hrst hr
    · rw [engineEdge_of_idle hb]
      exact .inr hd
    · rw [engineEdge_of_idle hb]
      rcases exec_while_idle (s := takeInput s) hb hu with ⟨hstatus, _⟩ | ⟨hwe, ha, rfl⟩
      · exact .inr ((congrArg Status.done hstatus).trans hd)
      · exact ctrlWord_busyOrDone (s := takeInput s) hd (hclr _ hb ⟨hrst, hreq, hwe, ha, rfl⟩)

end Sys2Proof.Machine

/-! PROOFS (30_encoding.md, 41_encoder.md R141, 42_decoder.md R176). Decoder and encoder are inverse, row by row; rows
that match one pattern mean the same; the formats `G24` and its sextets as numbers. -/

namespace Sys2Proof.Machine

/-! ### Command words (R90-R92) -/

/-- The row that the fields of a command word select (R91). -/
def commandRow (clr : Bool) (op : BitVec 2) : Instr :=
  if clr then .clr op
  else if op = 0#2 then .cmdNone
  else if op = 1#2 then .cmdEncode
  else if op = 2#2 then .cmdDecode
  else .cmdRsvd

theorem decodeCtrl_eq (v : Word) : decodeCtrl v = commandRow (ctrlClr v) (ctrlOp v) := rfl

theorem encode_commandRow (p : Params) : ∀ (clr : Bool) (op : BitVec 2),
    encode p (commandRow clr op) = (32, ctrlWord clr op)
  | true, _ => rfl
  | false, 0#2 => rfl
  | false, 1#2 => rfl
  | false, 2#2 => rfl
  | false, 3#2 => rfl

theorem wellFormed_commandRow (p : Params) : ∀ (clr : Bool) (op : BitVec 2), wellFormed p (commandRow clr op) = true
  | true, _ => rfl
  | false, 0#2 => rfl
  | false, 1#2 => rfl
  | false, 2#2 => rfl
  | false, 3#2 => rfl

theorem decodeFrame_command (p : Params) (v : Word) : decodeFrame p 32 v.toNat = .ok (decodeCtrl v) := by
  simp [decodeFrame, v.isLt]

/-- The fields of a command word with reserved bits 0. -/
theorem ctrlWord_fields : ∀ (clr : Bool) (op : BitVec 2), ctrlWord clr op < 2 ^ 32 ∧
    ctrlClr (BitVec.ofNat 32 (ctrlWord clr op)) = clr ∧ ctrlOp (BitVec.ofNat 32 (ctrlWord clr op)) = op := by
  decide

/-- Keeping `OP` and `CLR` drops the reserved bits (R92). -/
theorem ctrlWord_of_fields (v : Word) :
    ctrlWord (ctrlClr v) (ctrlOp v) = v.toNat % 4 + 256 * (v.toNat / 256 % 2) := by
  rw [ctrlWord, ctrlClr_eq, ctrlOp_toNat]
  rcases Nat.mod_two_eq_zero_or_one (v.toNat / 256) with h | h <;> simp [h, Nat.add_comm]

theorem ctrlOp_eq_ofNat {v : Word} {k : Nat} (h : v.toNat % 4 = k) : ctrlOp v = BitVec.ofNat 2 k := by
  apply BitVec.eq_of_toNat_eq
  rw [ctrlOp_toNat, BitVec.toNat_ofNat]
  omega

theorem decodeFrame_encode_commandRow (p : Params) (clr : Bool) (op : BitVec 2) :
    decodeFrame p (encode p (commandRow clr op)).1 (encode p (commandRow clr op)).2 = .ok (commandRow clr op) := by
  obtain ⟨hlt, hclr, hop⟩ := ctrlWord_fields clr op
  have hdec := decodeFrame_command p (BitVec.ofNat 32 (ctrlWord clr op))
  rw [BitVec.toNat_ofNat, Nat.mod_eq_of_lt hlt, decodeCtrl_eq, hclr, hop] at hdec
  rw [encode_commandRow]
  exact hdec

/-- Settles O4: the row is the one that the word's own fields select. -/
theorem everyCommandWordHasOneRow : Obligations.EveryCommandWordHasOneRow := by
  intro p v
  have row {k : Nat} (hclr : v.toNat / 256 % 2 = 0) (hop : v.toNat % 4 = k) :
      decodeCtrl v = commandRow false (BitVec.ofNat 2 k) := by
    rw [decodeCtrl_eq, ctrlClr_eq, hclr, ctrlOp_eq_ofNat hop]
    rfl
  refine ⟨decodeCtrl v, decodeFrame_command p v, wellFormed_commandRow p _ _, ?_, fun hclr => ?_, row, row, row, row⟩
  · rw [decodeCtrl_eq, encode_commandRow, ctrlWord_of_fields]
  · refine ⟨ctrlOp v, ?_, ctrlOp_toNat v⟩
    rw [decodeCtrl_eq, ctrlClr_eq, hclr]
    rfl

/-! ### Write transactions: the row of an offset (R98) -/

theorem refinedWrite_iff (p : Params) (a : Addr) : refinedWrite p a = true ↔
    a = 0x004#24 ∨ a = 0x00C#24 ∨ a = 0x014#24 ∨ (window p a = 1 ∧ a.toNat % 4 = 0) := by
  simp [refinedWrite, or_assoc]

/-- The row of a write and the offset it is at: a register that one row names, window 1, or any other. -/
theorem decodeWrite_cases (p : Params) (a : Addr) (v : Word) :
    (a = 0x004 ∧ decodeWrite p a v = .ctrlWrite v) ∨ (a = 0x00C ∧ decodeWrite p a v = .inLenWrite v) ∨
      (a = 0x014 ∧ decodeWrite p a v = .irqEnWrite v) ∨
      (window p a = 1 ∧ a.toNat % 4 = 0 ∧ decodeWrite p a v = .inbufWrite (BitVec.ofNat 24 (offset p a)) v) ∨
      (refinedWrite p a = false ∧ decodeWrite p a v = .busWrite a v) := by
  unfold decodeWrite
  split_ifs with h1 h2 h3 h4
  · exact .inl ⟨h1, rfl⟩
  · exact .inr (.inl ⟨h2, rfl⟩)
  · exact .inr (.inr (.inl ⟨h3, rfl⟩))
  · obtain ⟨hwin, h4⟩ : window p a = 1 ∧ a.toNat % 4 = 0 := by simpa [h1, h2, h3] using (refinedWrite_iff p a).mp h4
    exact .inr (.inr (.inr (.inl ⟨hwin, h4, rfl⟩)))
  · exact .inr (.inr (.inr (.inr ⟨by simpa using h4, rfl⟩)))

theorem decodeWrite_unrefined {p : Params} {a : Addr} (h : refinedWrite p a = false) (v : Word) :
    decodeWrite p a v = .busWrite a v := by
  have hnot := (refinedWrite_iff p a).not.mp (by simp [h])
  rw [decodeWrite, if_neg (by tauto), if_neg (by tauto), if_neg (by tauto), h]
  rfl

/-- An aligned window-1 offset is no register's, so its write is INBUF_WRITE. -/
theorem decodeWrite_inWindow {p : Params} (hp : ValidParams p) {off : Addr} (hlt : off.toNat < 2 ^ p.w)
    (h4 : off.toNat % 4 = 0) (v : Word) : decodeWrite p (inWindow p off) v = .inbufWrite off v := by
  have hnat : (inWindow p off).toNat = 2 ^ p.w + off.toNat := by rw [hp.inWindow_toNat, Nat.mod_eq_of_lt hlt]
  have := window_size_low hp.wLow
  have notRegister : ∀ b : Addr, b.toNat < 32 → inWindow p off ≠ b := fun b hb e => by rw [e] at hnat; omega
  have hrefined : refinedWrite p (inWindow p off) = true := by
    have := hp.size_mod_four
    exact (refinedWrite_iff p _).mpr (.inr (.inr (.inr ⟨hp.window_inWindow off, by omega⟩)))
  rw [decodeWrite, if_neg (notRegister _ (by decide)), if_neg (notRegister _ (by decide)),
    if_neg (notRegister _ (by decide)), if_pos hrefined, hp.offset_inWindow, Nat.mod_eq_of_lt hlt, BitVec.ofNat_toNat,
    BitVec.setWidth_eq]

/-- The offset of a window-1 transaction, as the operand of INBUF_WRITE. -/
theorem ValidParams.offset_operand {p : Params} (hp : ValidParams p) (a : Addr) :
    (BitVec.ofNat 24 (offset p a)).toNat = offset p a := by
  have hlt : offset p a < 2 ^ p.w := Nat.mod_lt _ (Nat.two_pow_pos _)
  have := hp.size_high
  rw [BitVec.toNat_ofNat, Nat.mod_eq_of_lt (by omega)]

theorem wellFormed_decodeWrite {p : Params} (hp : ValidParams p) {a : Addr} (ha : a.toNat < 2 ^ (p.w + 2)) (v : Word) :
    wellFormed p (decodeWrite p a v) = true := by
  rcases decodeWrite_cases p a v with ⟨_, e⟩ | ⟨_, e⟩ | ⟨_, e⟩ | ⟨hwin, h4, e⟩ | ⟨hun, e⟩ <;> rw [e]
  · rfl
  · rfl
  · rfl
  · obtain ⟨_, hlt⟩ := addr_split a ha
    have hoff4 : offset p a % 4 = 0 := (hp.offset_mod_four _).trans h4
    simp [wellFormed, bufferOffset, hp.offset_operand, hlt, hoff4]
  · simp [wellFormed, addrFits, hun, ha]

/-- Whatever row decodes a write, its bits are the write's. -/
theorem encode_decodeWrite {p : Params} (hp : ValidParams p) {a : Addr} (ha : a.toNat < 2 ^ (p.w + 2)) (v : Word) :
    encode p (decodeWrite p a v) = (busFrameBits p, writeFrame p a.toNat v) := by
  rcases decodeWrite_cases p a v with ⟨rfl, e⟩ | ⟨rfl, e⟩ | ⟨rfl, e⟩ | ⟨hwin, _, e⟩ | ⟨_, e⟩ <;> rw [e]
  · rfl
  · rfl
  · rfl
  · obtain ⟨hsplit, _⟩ := addr_split a ha
    rw [hwin, Nat.mul_one] at hsplit
    rw [encode, hp.offset_operand, ← hsplit]
  · rfl

/-! ### Frames (R98) -/

theorem decodeFrame_read (p : Params) {a : Addr} (ha : a.toNat < 2 ^ (p.w + 2)) :
    decodeFrame p (busFrameBits p) (a.toNat * 2 ^ 32) = .ok (.busRead a) := by
  simpa [decodeBus, portAddr_of_fits ha] using decodeFrame_transaction p false a 0 ha

theorem decodeFrame_write (p : Params) {a : Addr} (ha : a.toNat < 2 ^ (p.w + 2)) (v : Word) :
    decodeFrame p (busFrameBits p) (writeFrame p a.toNat v) = .ok (decodeWrite p a v) := by
  simpa [decodeBus, portAddr_of_fits ha, writeFrame] using decodeFrame_transaction p true a v ha

theorem decodeFrame_register_write {p : Params} (hp : ValidParams p) {a : Addr} (ha : a.toNat < 32) (v : Word) :
    decodeFrame p (busFrameBits p) (writeFrame p a.toNat v) = .ok (decodeWrite p a v) :=
  decodeFrame_write p (Laws.EncodeFits.register_fits hp a ha) v

/-- Settles O1: the bits of each row hold its offset and data, or its `OP` and `CLR`, and these select the row. -/
theorem decodeOfEncodeIsIdentity : Obligations.DecodeOfEncodeIsIdentity := by
  intro p i hv hwf
  have hp := ValidParams.of hv
  cases i with
  | busRead a =>
    have ha : a.toNat < 2 ^ (p.w + 2) := by simpa [wellFormed, addrFits] using hwf
    exact decodeFrame_read p ha
  | busWrite a v =>
    obtain ⟨ha, hun⟩ : a.toNat < 2 ^ (p.w + 2) ∧ refinedWrite p a = false := by
      simpa [wellFormed, addrFits] using hwf
    exact (decodeFrame_write p ha v).trans (congrArg _ (decodeWrite_unrefined hun v))
  | ctrlWrite v => exact decodeFrame_register_write hp (a := 0x004) (by decide) v
  | inLenWrite v => exact decodeFrame_register_write hp (a := 0x00C) (by decide) v
  | irqEnWrite v => exact decodeFrame_register_write hp (a := 0x014) (by decide) v
  | inbufWrite off v =>
    obtain ⟨hlt, h4⟩ : off.toNat < 2 ^ p.w ∧ off.toNat % 4 = 0 := by simpa [wellFormed, bufferOffset] using hwf
    have hnat : (inWindow p off).toNat = 2 ^ p.w + off.toNat := by rw [hp.inWindow_toNat, Nat.mod_eq_of_lt hlt]
    have ha : (inWindow p off).toNat < 2 ^ (p.w + 2) := by have := hp.space; omega
    have hdec := decodeFrame_write p ha v
    rw [hnat, decodeWrite_inWindow hp hlt h4] at hdec
    exact hdec
  | cmdNone => exact decodeFrame_encode_commandRow p false 0
  | cmdEncode => exact decodeFrame_encode_commandRow p false 1
  | cmdDecode => exact decodeFrame_encode_commandRow p false 2
  | cmdRsvd => exact decodeFrame_encode_commandRow p false 3
  | clr op => exact decodeFrame_encode_commandRow p true op

theorem frameWe_of_le {p : Params} {w : Nat} (hle : 2 ^ (p.w + 34) ≤ w) (hlt : w < 2 ^ (p.w + 35)) :
    frameWe p w = true := Nat.testBit_of_two_pow_le_and_two_pow_add_one_gt hle hlt

theorem frameWe_of_lt {p : Params} {w : Nat} (hlt : w < 2 ^ (p.w + 34)) : frameWe p w = false :=
  Nat.testBit_lt_two_pow hlt

theorem frameAddr_toNat {p : Params} (hp : ValidParams p) (w : Nat) :
    (frameAddr p w).toNat = w / 2 ^ 32 % 2 ^ (p.w + 2) := by
  have hlt : w / 2 ^ 32 % 2 ^ (p.w + 2) < 2 ^ (p.w + 2) := Nat.mod_lt _ (Nat.two_pow_pos _)
  exact (BitVec.toNat_ofNat _ _).trans (Nat.mod_eq_of_lt (Nat.lt_of_lt_of_le hlt hp.space.2))

theorem frameAddr_fits {p : Params} (hp : ValidParams p) (w : Nat) : (frameAddr p w).toNat < 2 ^ (p.w + 2) := by
  rw [frameAddr_toNat hp]
  exact Nat.mod_lt _ (Nat.two_pow_pos _)

/-- The write bit stands above the offset's `AW` bits and the 32 bits of data. -/
theorem writeBit_eq (p : Params) : 2 ^ (p.w + 34) = 2 ^ (p.w + 2) * 2 ^ 32 := Nat.pow_add 2 (p.w + 2) 32

theorem frameAddr_of_read {p : Params} (hp : ValidParams p) {w : Nat} (hlt : w < 2 ^ (p.w + 34)) :
    (frameAddr p w).toNat = w / 2 ^ 32 := by
  have := writeBit_eq p
  rw [frameAddr_toNat hp, Nat.mod_eq_of_lt (by omega)]

/-- A pattern with the write bit is the write of its own fields. -/
theorem writeFrame_of_fields {p : Params} (hp : ValidParams p) {w : Nat} (hle : 2 ^ (p.w + 34) ≤ w)
    (hlt : w < 2 ^ (p.w + 35)) : writeFrame p (frameAddr p w).toNat (frameData w) = w := by
  have hbit := writeBit_eq p
  have hdouble : 2 ^ (p.w + 35) = 2 ^ (p.w + 34) * 2 := Nat.pow_succ 2 (p.w + 34)
  have haddr : w / 2 ^ 32 % 2 ^ (p.w + 2) = w / 2 ^ 32 - 2 ^ (p.w + 2) := by
    rw [Nat.mod_eq_sub_mod (by omega), Nat.mod_eq_of_lt (by omega)]
  have hdata : (frameData w).toNat = w % 2 ^ 32 := BitVec.toNat_ofNat _ _
  have hweight : 2 ^ (addrBits p + 32) = 2 ^ (p.w + 34) := rfl
  rw [writeFrame, hweight, hdata, frameAddr_toNat hp, haddr]
  omega

theorem decodeFrame_pattern (p : Params) {w : Nat} (hlt : w < 2 ^ (p.w + 35)) :
    decodeFrame p (p.w + 35) w = .ok (decodeBus p (frameWe p w) (frameAddr p w) (frameData w)) := by
  have hwidth : busFrameBits p = p.w + 35 := rfl
  simp [decodeFrame, hwidth, hlt]

/-- Settles O3: the fields of the pattern are the operands of its row. -/
theorem everyTransactionHasOneRow : Obligations.EveryTransactionHasOneRow := by
  intro p w hv hlt
  have hp := ValidParams.of hv
  have ha := frameAddr_fits hp w
  refine ⟨_, decodeFrame_pattern p hlt, ?_⟩
  rw [decodeBus, portAddr_of_fits ha]
  rcases Nat.lt_or_ge w (2 ^ (p.w + 34)) with hread | hwrite
  · rw [frameWe_of_lt hread]
    exact ⟨by simpa [wellFormed, addrFits] using ha, .inl ⟨_, rfl, frameAddr_of_read hp hread, hread⟩⟩
  · rw [frameWe_of_le hwrite hlt, if_pos rfl]
    refine ⟨wellFormed_decodeWrite hp ha _, .inr ⟨?_, hwrite⟩⟩
    rw [encode_decodeWrite hp ha, writeFrame_of_fields hp hwrite hlt]
    rfl

/-! ### Rows that match one pattern mean the same (R98, R91) -/

/-- Settles O24: the row that the decoder gives a write means that write; for the registers it is the named row. -/
theorem busWriteMeansItsRefinedRow : Obligations.BusWriteMeansItsRefinedRow := by
  intro s a v hv ha
  have hp := ValidParams.of hv
  have register : ∀ b : Addr, b.toNat < 32 → exec (.busWrite b v) s = exec (decodeWrite s.cfg b v) s := fun b hb =>
    (exec_decodeWrite hp (Laws.EncodeFits.register_fits hp b hb) v).symm
  refine ⟨?_, register 0x004 (by decide), register 0x00C (by decide), register 0x014 (by decide)⟩
  simp only [decodeBus, if_true, portAddr_of_fits ha]
  exact (exec_decodeWrite hp ha v).symm

/-- Settles O25: a command row carries out the fields of its word, as CTRL_WRITE does. -/
theorem ctrlWriteRunsItsCommandRow : Obligations.CtrlWriteRunsItsCommandRow :=
  fun s v => (exec_decodeCtrl v s).symm

/-! ### Reserved bits (R92) -/

theorem exec_ctrlWrite_congr {v v' : Word} (hop : ctrlOp v = ctrlOp v') (hclr : ctrlClr v = ctrlClr v') (s : State) :
    exec (.ctrlWrite v) s = exec (.ctrlWrite v') s := by
  simp only [exec, execCtrlWrite, ctrlEffect, hop, hclr]

theorem exec_inLenWrite_congr {v v' : Word} (h : lenField v = lenField v') (s : State) :
    exec (.inLenWrite v) s = exec (.inLenWrite v') s := by
  simp only [exec, execInLenWrite, inLenEffect, h]

theorem exec_irqEnWrite_congr {v v' : Word} (h : ieField v = ieField v') (s : State) :
    exec (.irqEnWrite v) s = exec (.irqEnWrite v') s := by
  simp only [exec, execIrqEnWrite, irqEnEffect, h]

/-- Settles O26: each write reads the named fields of its word only. -/
theorem reservedBitsAreIgnored : Obligations.ReservedBitsAreIgnored := by
  intro s v v'
  refine ⟨fun hop hclr => ?_, fun hlen => ?_, fun hie => ?_⟩
  · refine exec_ctrlWrite_congr ?_ ?_ s
    · rw [ctrlOp_eq_ofNat hop, ctrlOp_eq_ofNat rfl]
    · rw [ctrlClr_eq, ctrlClr_eq, hclr]
  · refine exec_inLenWrite_congr (BitVec.eq_of_toNat_eq ?_) s
    simpa [lenField_eq] using hlen
  · refine exec_irqEnWrite_congr ?_ s
    rw [ieField_eq, ieField_eq, hie]

/-- Settles O30: the effect is `refuseBadCmd`, which names every field it changes. -/
theorem reservedCommandIsRefused : Obligations.ReservedCommandIsRefused := by
  intro s hb
  have hexec : exec .cmdRsvd s = .next (respondWrite (refuseBadCmd s)) := by
    rw [exec, execCmdRsvd, unlessBusy_of_idle hb]
  rw [hexec]
  exact takenWrite_respondWrite (refuseBadCmd s)

/-! ### Words of the spec -/

/-- Settles O2: eleven closed words. -/
theorem specWordsDecodeToTheirRows : Obligations.SpecWordsDecodeToTheirRows := by
  unfold Obligations.SpecWordsDecodeToTheirRows
  decide

/-! ### Bytes and sextets of a group as numbers (R94, 41_encoder.md R140, 42_decoder.md R176) -/

/-- The source's way to join two fields and to keep the low bits, in arithmetic. -/
theorem shiftLeft_or_and_mask {b k : Nat} (h : b < 2 ^ k) (a m : Nat) :
    ((a <<< k) ||| b) &&& (2 ^ m - 1) = (a * 2 ^ k + b) % 2 ^ m := by
  rw [shiftLeft_or_eq_add _ _ _ h, Nat.and_two_pow_sub_one_eq_mod]

theorem groupOfBytes_toNat (b0 b1 b2 : Byte) :
    (groupOfBytes b0 b1 b2).toNat = (b0.toNat * 2 ^ 8 + b1.toNat) * 2 ^ 8 + b2.toNat := by
  simp only [groupOfBytes, BitVec.toNat_append, shiftLeft_or_eq_add _ _ _ b1.isLt, shiftLeft_or_eq_add _ _ _ b2.isLt]

/-- The group of four sextets, the first the most significant (42_decoder.md R176). -/
def groupOfSextets (s0 s1 s2 s3 : Sextet) : BitVec 24 := s0 ++ s1 ++ s2 ++ s3

/-- PACK24 cuts the group into three bytes. -/
theorem pack24_eq (s0 s1 s2 s3 : Sextet) : pack24 s0 s1 s2 s3 =
    ((groupOfSextets s0 s1 s2 s3).extractLsb' 16 8, (groupOfSextets s0 s1 s2 s3).extractLsb' 8 8,
      (groupOfSextets s0 s1 s2 s3).extractLsb' 0 8) := rfl

theorem groupOfSextets_toNat (s0 s1 s2 s3 : Sextet) : (groupOfSextets s0 s1 s2 s3).toNat =
    ((s0.toNat * 2 ^ 6 + s1.toNat) * 2 ^ 6 + s2.toNat) * 2 ^ 6 + s3.toNat := by
  simp only [groupOfSextets, BitVec.toNat_append, shiftLeft_or_eq_add _ _ _ s1.isLt,
    shiftLeft_or_eq_add _ _ _ s2.isLt, shiftLeft_or_eq_add _ _ _ s3.isLt]

/-- The sextets that UNPACK24 cuts a group into make the group again. -/
theorem groupOfSextets_unpack24 (g : BitVec 24) : groupOfSextets (g.extractLsb' 18 6) (g.extractLsb' 12 6)
    (g.extractLsb' 6 6) (g.extractLsb' 0 6) = g := by
  have := g.isLt
  apply BitVec.eq_of_toNat_eq
  simp only [groupOfSextets_toNat, BitVec.extractLsb'_toNat, Nat.shiftRight_eq_div_pow]
  omega

/-- The bytes that make a group are the ones it is cut into. -/
theorem extract_groupOfBytes (b0 b1 b2 : Byte) : (groupOfBytes b0 b1 b2).extractLsb' 16 8 = b0 ∧
    (groupOfBytes b0 b1 b2).extractLsb' 8 8 = b1 ∧ (groupOfBytes b0 b1 b2).extractLsb' 0 8 = b2 := by
  have := b0.isLt
  have := b1.isLt
  have := b2.isLt
  simp only [← BitVec.toNat_inj, BitVec.extractLsb'_toNat, groupOfBytes_toNat, Nat.shiftRight_eq_div_pow]
  omega

/-- Settles O42: both sides are the same field of the group's number. -/
theorem unpackMatchesTheSourceFormulas : Obligations.UnpackMatchesTheSourceFormulas := by
  intro b0 b1 b2
  have := b0.isLt
  have := b1.isLt
  have := b2.isLt
  have h1 : b1.toNat / 2 ^ 4 < 2 ^ 4 := by omega
  have h2 : b2.toNat / 2 ^ 6 < 2 ^ 2 := by omega
  refine ⟨_, _, _, _, rfl, ?_⟩
  simp only [BitVec.extractLsb'_toNat, groupOfBytes_toNat, Nat.shiftRight_eq_div_pow]
  rw [show 0x3F = 2 ^ 6 - 1 from rfl, shiftLeft_or_and_mask h1, shiftLeft_or_and_mask h2,
    Nat.and_two_pow_sub_one_eq_mod]
  omega

/-- PACK24 of the sextets that UNPACK24 cuts a group into is the group cut into bytes. -/
theorem pack24_unpack24 (g : BitVec 24) :
    pack24 (g.extractLsb' 18 6) (g.extractLsb' 12 6) (g.extractLsb' 6 6) (g.extractLsb' 0 6) =
      (g.extractLsb' 16 8, g.extractLsb' 8 8, g.extractLsb' 0 8) := by
  rw [pack24_eq, groupOfSextets_unpack24]

/-- Settles O43: both sides of each formula are the same byte of the group's number, and the group of three bytes is
kept by both units. -/
theorem packMatchesTheSourceFormulas : Obligations.PackMatchesTheSourceFormulas := by
  refine ⟨fun s0 s1 s2 s3 => ?_, fun b0 b1 b2 => ?_⟩
  · have := s0.isLt
    have := s1.isLt
    have := s2.isLt
    have h1 : s1.toNat / 2 ^ 4 < 2 ^ 2 := by omega
    have h2 : s2.toNat / 2 ^ 2 < 2 ^ 4 := by omega
    refine ⟨_, _, _, pack24_eq s0 s1 s2 s3, ?_⟩
    simp only [BitVec.extractLsb'_toNat, groupOfSextets_toNat, Nat.shiftRight_eq_div_pow]
    rw [show 0xFF = 2 ^ 8 - 1 from rfl, shiftLeft_or_and_mask h1, shiftLeft_or_and_mask h2,
      shiftLeft_or_and_mask s3.isLt]
    omega
  · obtain ⟨h0, h1, h2⟩ := extract_groupOfBytes b0 b1 b2
    exact (pack24_unpack24 _).trans (by rw [h0, h1, h2])

end Sys2Proof.Machine

/-! PROOFS (41_encoder.md). The encoder: the round trip through the decoder, the text's length, shape and
groups, and where a completed ENCODE places the text. -/

namespace Sys2Proof.Machine

/-! ### Packing undoes unpacking, group by group (R142, 42_decoder.md R176, R177) -/

/-- DEC_GROUP of the sextets of a group is its first `m - 1` bytes. -/
theorem decGroup_unpack24 (b0 b1 b2 : Byte) (m : Nat) :
    decGroup ((groupOfBytes b0 b1 b2).extractLsb' 18 6) ((groupOfBytes b0 b1 b2).extractLsb' 12 6)
      ((groupOfBytes b0 b1 b2).extractLsb' 6 6) ((groupOfBytes b0 b1 b2).extractLsb' 0 6) m =
      [b0, b1, b2].take (m - 1) := by
  obtain ⟨h0, h1, h2⟩ := extract_groupOfBytes b0 b1 b2
  rw [decGroup, pack24_unpack24, h0, h1, h2]

/-- The sextets that absent bytes leave undetermined are 0 (R143). -/
theorem extract_absent_bytes (b0 b1 : Byte) :
    (groupOfBytes b0 0 0).extractLsb' 6 6 = 0 ∧ (groupOfBytes b0 b1 0).extractLsb' 0 6 = 0 := by
  have hzero (n : Nat) : (0 : BitVec n).toNat = 0 := rfl
  simp only [← BitVec.toNat_inj, BitVec.extractLsb'_toNat, groupOfBytes_toNat, Nat.shiftRight_eq_div_pow, hzero]
  omega

/-- Packing the sextets of a message gives the message: the sextets that a final partial group leaves out are 0, which
is what packing fills in. -/
theorem packMsg_sextets : ∀ t : List Byte, packMsg (sextets t) = t
  | [] => rfl
  | [b0] => by
    have h := decGroup_unpack24 b0 0 0 2
    rwa [(extract_absent_bytes b0 0).1, (extract_absent_bytes b0 0).2] at h
  | [b0, b1] => by
    have h := decGroup_unpack24 b0 b1 0 3
    rwa [(extract_absent_bytes b0 b1).2] at h
  | b0 :: b1 :: b2 :: t =>
    calc packMsg (sextets (b0 :: b1 :: b2 :: t))
        = [b0, b1, b2] ++ packMsg (sextets t) := congrArg (· ++ _) (decGroup_unpack24 b0 b1 b2 4)
      _ = b0 :: b1 :: b2 :: t := by rw [packMsg_sextets t]; rfl

/-! ### The round trip (R151) -/

/-- The characters of sextets hold no PAD. -/
theorem pad_not_mem_map_i2c (s : List Sextet) : pad ∉ s.map i2c := by
  rw [List.mem_map]
  rintro ⟨i, -, h⟩
  exact i2c_ne_pad i h

theorem midPad_of_pad_not_mem {c : List Byte} (h : pad ∉ c) : midPad c = false := by
  rw [midPad, List.any_eq_false]
  intro x hx hpad
  exact h (beq_iff_eq.mp hpad ▸ List.mem_of_mem_take hx)

/-- Settles O47: the trailing PAD are trimmed off the text, the characters left pass every check, and their sextets pack
to the message. -/
theorem decodeInvertsEncode : Obligations.DecodeInvertsEncode := by
  intro t
  have hpad := pad_not_mem_map_i2c (sextets t)
  have hlast : ((sextets t).map i2c).getLast? ≠ some pad := fun h => hpad (List.mem_of_getLast? h)
  have hlen := sextets_length t
  rw [encodeMsg_eq, decodeMsg_ok_iff, coreText_append _ _ hlast, coreLen_append _ _ hlast, trailingLen_append _ _ hlast,
    List.length_map]
  refine ⟨?_, midPad_of_pad_not_mem hpad, ?_, sextets t, translateAll_map_i2c _, (packMsg_sextets t).symm⟩
  · rw [Bool.eq_false_iff, Ne, badLength_iff]
    split at hlen <;> omega
  · rw [Bool.eq_false_iff, Ne, shortPad_iff]
    split at hlen <;> omega

/-! ### The text's length, shape and groups (R148, R149, R143) -/

/-- Settles O45: the characters of the sextets and the PAD after them make full groups. -/
theorem encodeLengthLaw : Obligations.EncodeLengthLaw := encodeMsg_length

/-- Settles O46: the text is the characters of the sextets, then PAD. -/
theorem encodeOutputShape : Obligations.EncodeOutputShape := by
  intro t i hi
  have hlen : (encodeMsg t).length - (3 - t.length % 3) % 3 = ((sextets t).map i2c).length := by
    rw [encodeMsg_eq, List.length_append, List.length_replicate, Nat.add_sub_cancel]
  simp only [hlen]
  refine ⟨fun hlt => ?_, fun hle => ?_⟩
  · rw [encodeMsg_eq, List.getD_append _ _ _ _ hlt, List.getD_eq_getElem _ _ hlt, List.getElem_map, c2i_i2c]
  · have hp : i - ((sextets t).map i2c).length < (3 - t.length % 3) % 3 := by omega
    rw [encodeMsg_eq, List.getD_append_right _ _ _ _ hle, List.getD_replicate _ hp]

/-- The text of a message that starts with a full group is that group's characters, then the text of the rest. -/
theorem encodeMsg_cons_group (b0 b1 b2 : Byte) (t : List Byte) :
    encodeMsg (b0 :: b1 :: b2 :: t) = encGroup b0 b1 b2 3 ++ encodeMsg t := rfl

/-- Settles O44: taking a full group off the message takes one group off the text and leaves every later group as it
was; what is left in the end is a partial group. -/
theorem encodeWorksGroupByGroup : Obligations.EncodeWorksGroupByGroup := by
  intro t
  induction t using encodeMsg.induct with
  | case1 => intro g hg; exact absurd hg (Nat.not_lt_zero g)
  | case2 b0 =>
    intro g hg
    obtain rfl : g = 0 := by simpa using hg
    rfl
  | case3 b0 b1 =>
    intro g hg
    obtain rfl : g = 0 := by simpa using hg
    rfl
  | case4 b0 b1 b2 t ih =>
    intro g hg
    have hn : (b0 :: b1 :: b2 :: t).length = t.length + 3 := rfl
    rw [hn] at hg ⊢
    rw [encodeMsg_cons_group]
    cases g with
    | zero =>
      have hm : min 3 (t.length + 3 - 3 * 0) = 3 := by omega
      rw [hm]
      rfl
    | succ g =>
      have hm : t.length + 3 - 3 * (g + 1) = t.length - 3 * g := by omega
      have hdrop : (encGroup b0 b1 b2 3 ++ encodeMsg t).drop (4 * (g + 1)) = (encodeMsg t).drop (4 * g) := by
        rw [Nat.mul_add_one, Nat.add_comm]
        exact List.drop_length_add_append (l₁ := encGroup b0 b1 b2 3) (4 * g)
      rw [hm, hdrop]
      exact ih g (by omega)

/-! ### Completion of an ENCODE (R147, R150, 43_host_commands.md R220) -/

/-- The engine's step on a running ENCODE stores the text of its message. -/
theorem complete_encode {s : State} {len : Len} (h : s.eng = .run .encode len) :
    complete s = completeOk (encodeMsg (message s len.toNat)) s := by
  simp only [complete, h, completeRun, codec]

theorem completeOk_outStore_beyond (out : List Byte) (s : State) {i : Nat} (h : out.length ≤ i) :
    (completeOk out s).outStore.read? i = s.outStore.read? i := by
  rw [completeOk_outStore, Memory.read?_writeAll, if_neg (by omega)]

/-- Settles O33: the text of an accepted length fits `OUT_LEN` and stands in `OutStore` from index 0. -/
theorem encodeCompletionPlacesTheText : Obligations.EncodeCompletionPlacesTheText := by
  intro s len hv he hcap out
  have hout : out.length = 4 * ((len.toNat + 2) / 3) :=
    (encodeMsg_length (message s len.toNat)).trans (by rw [message_length])
  have hlen : (BitVec.ofNat 24 out.length).toNat = out.length := by
    have := (ValidParams.of hv).outCap_le
    unfold outCap at this
    rw [BitVec.toNat_ofNat, Nat.mod_eq_of_lt (by omega)]
  have hc : complete s = completeOk out s := complete_encode he
  rw [hc]
  refine ⟨rfl, hlen.trans hout, fun i hi => read?_writeAll_zero _ _ _ hi,
    fun i hi => completeOk_outStore_beyond out s hi, fun i => ?_⟩
  rw [outView_completeOk, hlen]
  split_ifs with hi
  · rfl
  · rw [List.getD_eq_default _ _ (Nat.le_of_not_lt hi)]

end Sys2Proof.Machine

/-! PROOFS (42_decoder.md). The decoder: which result a message has, what of a message decides it, the bytes of a
result, and what a completed DECODE leaves. -/

namespace Sys2Proof.Machine

/-! ### Which result a message has (R166, R181) -/

theorem decodeMsg_inputLength_iff (t : List Byte) :
    decodeMsg t = .err .inputLength 0 ↔ badLength (coreLen t) = true := by
  unfold decodeMsg
  split_ifs with h1 h2 h3
  · simp [h1]
  · simp [h1]
  · simp [h1]
  · cases translateAll (coreText t) <;> simp [h1]

theorem decodeMsg_wrongPadding_iff (t : List Byte) :
    decodeMsg t = .err .wrongPadding 0 ↔ badLength (coreLen t) = false ∧
      (midPad (coreText t) = true ∨ shortPad (coreLen t) (trailingLen t) = true) := by
  unfold decodeMsg
  split_ifs with h1 h2 h3
  · simp [h1]
  · simp [h1, h2]
  · simp [h1, h3]
  · cases translateAll (coreText t) <;> simp [h2, h3]

theorem decodeMsg_invalidByte_iff (t : List Byte) (b : Byte) :
    decodeMsg t = .err .invalidByte b ↔ badLength (coreLen t) = false ∧
      (midPad (coreText t) = false ∧ shortPad (coreLen t) (trailingLen t) = false) ∧
      translateAll (coreText t) = .error b := by
  unfold decodeMsg
  split_ifs with h1 h2 h3
  · simp [h1]
  · simp [h2]
  · simp [h3]
  · cases translateAll (coreText t) <;> simp [h1, h2, h3]

/-- The first character of the core without a sextet, by its index in the message. -/
theorem translateAll_coreText_error_iff (t : List Byte) (b : Byte) : translateAll (coreText t) = .error b ↔
    ∃ i, i < coreLen t ∧ t[i]? = some b ∧ (c2i b).1 = false ∧
      ∀ k c, k < i → t[k]? = some c → (c2i c).1 = true := by
  rw [translateAll_error_iff, coreText_length]
  refine exists_congr fun i => and_congr_right fun hi => ?_
  rw [coreText_getElem? t i hi]
  refine and_congr_right fun _ => and_congr_right fun _ => forall₂_congr fun k c => imp_congr_right fun hk => ?_
  rw [coreText_getElem? t k (hk.trans hi)]

/-- Settles O51: Steps 2 to 5 as conditions on the message, each reached only if the steps before it pass. -/
theorem decodeErrorPriority : Obligations.DecodeErrorPriority := by
  intro t b n lengthBad paddingBad firstInvalid
  have hlength : badLength n = false ↔ ¬lengthBad := by rw [Bool.eq_false_iff, Ne, badLength_iff]
  have hpadding : (midPad (coreText t) = true ∨ shortPad n (trailingLen t) = true) ↔ paddingBad := by
    rw [midPad_iff, shortPad_iff]
  have hpadded : (midPad (coreText t) = false ∧ shortPad n (trailingLen t) = false) ↔ ¬paddingBad := by
    rw [← hpadding, not_or, Bool.not_eq_true, Bool.not_eq_true]
  refine ⟨?_, ?_, ?_⟩
  · rw [decodeMsg_inputLength_iff, badLength_iff]
  · rw [decodeMsg_wrongPadding_iff, hlength, hpadding]
  · rw [decodeMsg_invalidByte_iff, hlength, hpadded, translateAll_coreText_error_iff]

/-- Steps 2 to 4 pass exactly when the decode gets as far as translation. -/
theorem decodeMsg_translates_iff (t : List Byte) :
    ((∃ out, decodeMsg t = .ok out) ∨ ∃ b, decodeMsg t = .err .invalidByte b) ↔ badLength (coreLen t) = false ∧
      midPad (coreText t) = false ∧ shortPad (coreLen t) (trailingLen t) = false := by
  simp only [decodeMsg_ok_iff, decodeMsg_invalidByte_iff]
  cases translateAll (coreText t) with
  | error b => simp
  | ok s => simp

theorem validate_eq_one_iff (n k : Nat) (m : Bool) : validate n k m = 1 ↔ badLength n = true := by
  unfold validate
  split_ifs with h1 <;> simp [h1]

theorem validate_eq_two_iff (n k : Nat) (m : Bool) :
    validate n k m = 2 ↔ badLength n = false ∧ (m = true ∨ shortPad n k = true) := by
  unfold validate
  split_ifs with h1 h2 h3 <;> simp [*]

theorem validate_eq_zero_iff (n k : Nat) (m : Bool) :
    validate n k m = 0 ↔ badLength n = false ∧ m = false ∧ shortPad n k = false := by
  unfold validate
  split_ifs with h1 h2 h3 <;> simp [*]

/-- Settles O49: the unit's code and the decode's result are decided by the same conditions. -/
theorem validateAgreesWithSteps2To4 : Obligations.ValidateAgreesWithSteps2To4 := by
  intro t code
  refine ⟨?_, ?_, ?_⟩
  · rw [validate_eq_one_iff, decodeMsg_inputLength_iff]
  · rw [validate_eq_two_iff, decodeMsg_wrongPadding_iff]
  · rw [validate_eq_zero_iff, decodeMsg_translates_iff]

/-! ### What of a message decides its result (R171-R173) -/

/-- A decode reads the core's length, the answers of Steps 3 and 4, and what the core's sextets pack to. -/
theorem decodeMsg_congr {t u : List Byte} (hlen : coreLen t = coreLen u)
    (hmid : midPad (coreText t) = midPad (coreText u))
    (hshort : shortPad (coreLen t) (trailingLen t) = shortPad (coreLen u) (trailingLen u))
    (hpack : (translateAll (coreText t)).map packMsg = (translateAll (coreText u)).map packMsg) :
    decodeMsg t = decodeMsg u := by
  unfold decodeMsg
  rw [hshort, hmid, hlen]
  split_ifs
  · rfl
  · rfl
  · rfl
  · generalize translateAll (coreText t) = r, translateAll (coreText u) = r' at hpack
    cases r with
    | error b => cases r' with
      | error b' => cases hpack; rfl
      | ok s' => cases hpack
    | ok s => cases r' with
      | error b' => cases hpack
      | ok s' => exact congrArg CodecResult.ok (Except.ok.inj hpack)

/-- Settles O50: both messages have the core `c`, and Step 4 passes for both counts. -/
theorem excessPaddingChangesNothing : Obligations.ExcessPaddingChangesNothing := by
  intro c j k hc h2 h3
  have hcore : coreText (c ++ List.replicate j pad) = coreText (c ++ List.replicate k pad) := by
    rw [coreText_append c j hc, coreText_append c k hc]
  refine decodeMsg_congr ?_ (by rw [hcore]) ?_ (by rw [hcore])
  · rw [coreLen_append c j hc, coreLen_append c k hc]
  · rw [coreLen_append c j hc, coreLen_append c k hc, trailingLen_append c j hc, trailingLen_append c k hc,
      Bool.eq_iff_iff, shortPad_iff, shortPad_iff]
    omega

/-- Settles O53: the core is empty, and no PAD is needed after it. -/
theorem padOnlyMessageDecodesToNothing : Obligations.PadOnlyMessageDecodesToNothing := fun k =>
  calc decodeMsg (List.replicate k pad)
      = decodeMsg [] := excessPaddingChangesNothing [] k 0 (by simp) (by simp) (by simp)
    _ = .ok [] := by decide

/-! ### The bits that a final partial group drops (R172, R177) -/

/-- The first two bytes of a group, each from two sextets. -/
theorem extract_groupOfSextets (s0 s1 s2 s3 : Sextet) :
    (groupOfSextets s0 s1 s2 s3).extractLsb' 16 8 = BitVec.ofNat 8 (s0.toNat * 4 + s1.toNat / 16) ∧
      (groupOfSextets s0 s1 s2 s3).extractLsb' 8 8 = BitVec.ofNat 8 (s1.toNat * 16 + s2.toNat / 4) := by
  have := s1.isLt
  have := s2.isLt
  have := s3.isLt
  simp only [← BitVec.toNat_inj, BitVec.extractLsb'_toNat, groupOfSextets_toNat, Nat.shiftRight_eq_div_pow,
    BitVec.toNat_ofNat]
  omega

/-- Of the last of two sextets DEC_GROUP reads the upper two bits. -/
theorem decGroup_two (s0 s1 : Sextet) : decGroup s0 s1 0 0 2 = [BitVec.ofNat 8 (s0.toNat * 4 + s1.toNat / 16)] :=
  congrArg (fun b => [b]) (extract_groupOfSextets s0 s1 0 0).1

/-- Of the last of three sextets DEC_GROUP reads the upper four bits. -/
theorem decGroup_three (s0 s1 s2 : Sextet) : decGroup s0 s1 s2 0 3 =
    [BitVec.ofNat 8 (s0.toNat * 4 + s1.toNat / 16), BitVec.ofNat 8 (s1.toNat * 16 + s2.toNat / 4)] := by
  obtain ⟨h0, h1⟩ := extract_groupOfSextets s0 s1 s2 0
  rw [decGroup, pack24_eq, h0, h1]
  rfl

/-- Two last sextets of a partial group that differ in the bits it drops only (R172). -/
def sameKeptBits (n : Nat) (x y : Sextet) : Prop :=
  (n % 4 = 1 ∧ x.toNat / 16 = y.toNat / 16) ∨ (n % 4 = 2 ∧ x.toNat / 4 = y.toNat / 4)

theorem packMsg_concat_congr {x y : Sextet} : ∀ s : List Sextet, sameKeptBits s.length x y →
    packMsg (s ++ [x]) = packMsg (s ++ [y])
  | [], h => by simp [sameKeptBits] at h
  | [s0], h => by
    have hxy : x.toNat / 16 = y.toNat / 16 := by simpa [sameKeptBits] using h
    simp only [List.cons_append, List.nil_append, packMsg, decGroup_two, hxy]
  | [s0, s1], h => by
    have hxy : x.toNat / 4 = y.toNat / 4 := by simpa [sameKeptBits] using h
    simp only [List.cons_append, List.nil_append, packMsg, decGroup_three, hxy]
  | [_, _, _], h => by simp [sameKeptBits] at h
  | s0 :: s1 :: s2 :: s3 :: s, h => by
    have hs : sameKeptBits s.length x y := by simpa [sameKeptBits, Nat.add_assoc] using h
    simp only [List.cons_append, packMsg, packMsg_concat_congr s hs]

theorem translateAll_concat (c : List Byte) {a : Byte} {x : Sextet} (ha : c2i a = (true, x)) :
    translateAll (c ++ [a]) = (translateAll c).map (· ++ [x]) := by
  induction c with
  | nil => simp [translateAll, ha, Except.map]
  | cons d c ih =>
    rw [List.cons_append, translateAll, translateAll, ih]
    rcases c2i d with ⟨_ | _, z⟩
    · rfl
    · cases translateAll c <;> rfl

theorem ne_pad_of_c2i {a : Byte} (h : (c2i a).1 = true) : a ≠ pad := by
  rintro rfl
  simp at h

theorem getLast?_concat_ne_pad (c : List Byte) {a : Byte} {x : Sextet} (ha : c2i a = (true, x)) :
    (c ++ [a]).getLast? ≠ some pad := by
  rw [List.getLast?_concat, Ne, Option.some_inj]
  exact ne_pad_of_c2i (by rw [ha])

/-- Step 3 does not look at the last character of a partial group. -/
theorem midPad_concat (c : List Byte) (a : Byte) (h : (c.length + 1) % 4 ≠ 0) :
    midPad (c ++ [a]) = (c.take (4 * ((c.length + 1) / 4))).any (· == pad) := by
  have hle : 4 * ((c.length + 1) / 4) ≤ c.length := by omega
  rw [midPad, List.length_append, List.length_singleton, List.take_append_of_le_length hle]

/-- The last core character counts by the bits of its sextet that the last group keeps. -/
theorem decodeMsg_concat_congr {c : List Byte} {a b : Byte} {x y : Sextet} (k : Nat) (ha : c2i a = (true, x))
    (hb : c2i b = (true, y)) (hxy : sameKeptBits c.length x y) :
    decodeMsg (c ++ [a] ++ List.replicate k pad) = decodeMsg (c ++ [b] ++ List.replicate k pad) := by
  have hla := getLast?_concat_ne_pad c ha
  have hlb := getLast?_concat_ne_pad c hb
  have hmod : (c.length + 1) % 4 ≠ 0 := by rcases hxy with ⟨h, -⟩ | ⟨h, -⟩ <;> omega
  have hlen : (c ++ [a]).length = (c ++ [b]).length := by simp
  apply decodeMsg_congr
  · rw [coreLen_append _ k hla, coreLen_append _ k hlb, hlen]
  · rw [coreText_append _ k hla, coreText_append _ k hlb, midPad_concat c a hmod, midPad_concat c b hmod]
  · rw [coreLen_append _ k hla, coreLen_append _ k hlb, trailingLen_append _ k hla, trailingLen_append _ k hlb, hlen]
  · rw [coreText_append _ k hla, coreText_append _ k hlb, translateAll_concat c ha, translateAll_concat c hb]
    cases hc : translateAll c with
    | error d => rfl
    | ok s =>
      have hs : sameKeptBits s.length x y := by rwa [translateAll_length c s hc]
      exact congrArg Except.ok (packMsg_concat_congr s hs)

/-- A core of characters that have sextets decodes to a result when Steps 2 and 4 pass. -/
theorem decodeMsg_ok_of_sextets {c : List Byte} {k : Nat} (hc : ∀ d ∈ c, (c2i d).1 = true)
    (hlen : badLength c.length = false) (hshort : shortPad c.length k = false) :
    ∃ out, decodeMsg (c ++ List.replicate k pad) = .ok out := by
  have hpad : pad ∉ c := fun h => ne_pad_of_c2i (hc pad h) rfl
  have hlast : c.getLast? ≠ some pad := fun h => hpad (List.mem_of_getLast? h)
  refine ⟨packMsg (c.map fun d => (c2i d).2), ?_⟩
  rw [decodeMsg_ok_iff, coreText_append c k hlast, coreLen_append c k hlast, trailingLen_append c k hlast]
  exact ⟨hlen, midPad_of_pad_not_mem hpad, hshort, _, (translateAll_ok_iff c _).mpr ⟨hc, rfl⟩, rfl⟩

/-- Settles O52: the core's last character takes part in the result by the kept bits of its sextet alone. -/
theorem droppedBitsAreNotChecked : Obligations.DroppedBitsAreNotChecked := by
  refine ⟨fun c a b x y k ha hb hxy => ⟨?_, fun hc hk => ?_⟩, fun s0 s1 s1' s2 s2' => ⟨fun h => ?_, fun h => ?_⟩,
    by decide, by decide⟩
  · rw [List.append_cons, List.append_cons c b]
    exact decodeMsg_concat_congr k ha hb hxy
  · rw [List.append_cons]
    have hca : ∀ d ∈ c ++ [a], (c2i d).1 = true := by
      simp only [List.mem_append, List.mem_singleton]
      rintro d (hd | rfl)
      · exact hc d hd
      · rw [ha]
    have hn : (c ++ [a]).length = c.length + 1 := by simp
    apply decodeMsg_ok_of_sextets hca
    · rw [hn, Bool.eq_false_iff, Ne, badLength_iff]
      omega
    · rw [hn, Bool.eq_false_iff, Ne, shortPad_iff]
      omega
  · rw [decGroup_two, decGroup_two, h]
  · rw [decGroup_three, decGroup_three, h]

/-! ### The bytes of a result (R168, R170) -/

/-- Each group of the packed bytes is DEC_GROUP of the group's sextets, the absent ones 0. -/
theorem packMsg_group : ∀ (s : List Sextet) (g : Nat), g < (s.length + 3) / 4 →
    ((packMsg s).drop (3 * g)).take 3 =
      decGroup (s.getD (4 * g) 0) (s.getD (4 * g + 1) 0) (s.getD (4 * g + 2) 0) (s.getD (4 * g + 3) 0)
        (min 4 (s.length - 4 * g))
  | [], _, hg => absurd hg (Nat.not_lt_zero _)
  | [_], g, hg | [_, _], g, hg | [_, _, _], g, hg => by
    obtain rfl : g = 0 := by simpa using hg
    rfl
  | s0 :: s1 :: s2 :: s3 :: s, 0, _ => by
    have hm : min 4 ((s0 :: s1 :: s2 :: s3 :: s).length - 4 * 0) = 4 := by simp only [List.length_cons]; omega
    rw [hm]
    rfl
  | s0 :: s1 :: s2 :: s3 :: s, g + 1, hg => by
    have hn : (s0 :: s1 :: s2 :: s3 :: s).length = s.length + 4 := rfl
    have hm : s.length + 4 - 4 * (g + 1) = s.length - 4 * g := by omega
    have hdrop : (decGroup s0 s1 s2 s3 4 ++ packMsg s).drop (3 * (g + 1)) = (packMsg s).drop (3 * g) := by
      rw [Nat.mul_add_one, Nat.add_comm]
      exact List.drop_length_add_append (l₁ := decGroup s0 s1 s2 s3 4) (3 * g)
    rw [hn] at hg ⊢
    rw [packMsg, hdrop, hm]
    exact packMsg_group s g (by omega)

theorem coreText_getElem?_eq_some {t : List Byte} {i : Nat} (h : i < coreLen t) :
    (coreText t)[i]? = some (t.getD i 0) := by
  have hlt : i < t.length := h.trans_le (coreLen_le t)
  rw [coreText_getElem? t i h, List.getElem?_eq_getElem hlt, List.getD_eq_getElem _ _ hlt]

/-- The core's sextets by the index in the message, 0 beyond the core. -/
theorem coreSextets_getD (t : List Byte) (i : Nat) : ((coreText t).map fun c => (c2i c).2).getD i 0 =
    if i < coreLen t then (c2i (t.getD i 0)).2 else 0 := by
  split_ifs with h
  · rw [List.getD_eq_getElem?_getD, List.getElem?_map, coreText_getElem?_eq_some h]
    rfl
  · exact List.getD_eq_default _ _ (by rw [List.length_map, coreText_length]; omega)

/-- Settles O48: every core character was translated, and the sextets are packed group by group. -/
theorem decodeLengthLaw : Obligations.DecodeLengthLaw := by
  intro t out h
  obtain ⟨hlen, -, -, s, hs, rfl⟩ := (decodeMsg_ok_iff t out).mp h
  obtain ⟨hvalid, rfl⟩ := (translateAll_ok_iff (coreText t) s).mp hs
  have hn : ((coreText t).map fun c => (c2i c).2).length = coreLen t := by rw [List.length_map, coreText_length]
  have hmod : coreLen t % 4 ≠ 1 := by rwa [Ne, ← badLength_iff, Bool.not_eq_true]
  refine ⟨?_, decodeMsg_length_le h, fun g hg => ?_⟩
  · rw [packMsg_length _ (by rwa [hn]), hn]
  intro m x
  have hx (k : Nat) (hk : k < 4) : ((coreText t).map fun c => (c2i c).2).getD (4 * g + k) 0 = x k := by
    have hiff : 4 * g + k < coreLen t ↔ k < m := by omega
    simp only [coreSextets_getD, hiff, x]
  refine ⟨fun k hk => hvalid _ (List.mem_of_getElem? (coreText_getElem?_eq_some (by omega))), ?_⟩
  rw [packMsg_group _ g (by rwa [hn]), hn, ← hx 0 (by omega), ← hx 1 (by omega), ← hx 2 (by omega), ← hx 3 (by omega)]
  rfl

/-! ### Completion of a DECODE (R160, R169, R178, 43_host_commands.md R220) -/

theorem complete_decode_ok {s : State} {len : Len} {out : List Byte} (he : s.eng = .run .decode len)
    (hd : decodeMsg (message s len.toNat) = .ok out) : complete s = completeOk out s := by
  simp only [complete, he, completeRun, codec, hd]

theorem complete_decode_err {s : State} {len : Len} {k : ErrKind} {b : Byte} (he : s.eng = .run .decode len)
    (hd : decodeMsg (message s len.toNat) = .err k b) : complete s = completeErr k b s := by
  simp only [complete, he, completeRun, codec, hd]

/-- Settles O34: the engine's step takes the result of its message, which fits `OUT_LEN`, or the error. -/
theorem decodeCompletionReportsTheResult : Obligations.DecodeCompletionReportsTheResult := by
  intro s len _ he _ t failed
  have hfailed (k : ErrKind) (b : Byte) (hd : decodeMsg (message s len.toNat) = .err k b) : failed (codeOf k) b := by
    have ht : t = completeErr k b s := complete_decode_err he hd
    exact ⟨by rw [ht]; rfl, fun i => by rw [ht, outView_completeErr]⟩
  split
  case h_1 out hd =>
    have ht : t = completeOk out s := complete_decode_ok he hd
    have hlen : (BitVec.ofNat 24 out.length).toNat = out.length := by
      have hle : out.length ≤ len.toNat := (decodeMsg_length_le hd).trans_eq (message_length s len.toNat)
      rw [BitVec.toNat_ofNat, Nat.mod_eq_of_lt (hle.trans_lt len.isLt)]
    rw [ht]
    refine ⟨rfl, hlen, fun i hi => read?_writeAll_zero _ _ _ hi,
      fun i hi => completeOk_outStore_beyond out s hi, fun i => ?_⟩
    rw [outView_completeOk, hlen]
    split_ifs with hi
    · rfl
    · rw [List.getD_eq_default _ _ (Nat.le_of_not_lt hi)]
  case h_2 b hd =>
    obtain rfl : b = 0 := (decodeMsg_err_byte _ _ _ hd).resolve_left (by decide)
    exact ⟨rfl, hfailed _ _ hd⟩
  case h_3 b hd =>
    obtain rfl : b = 0 := (decodeMsg_err_byte _ _ _ hd).resolve_left (by decide)
    exact ⟨rfl, hfailed _ _ hd⟩
  case h_4 b hd => exact hfailed _ _ hd

end Sys2Proof.Machine

/-! PROOFS (43_host_commands.md). What the host's writes and commands do while idle and while BUSY, the STATUS word, and
the progress of a running command. -/

namespace Sys2Proof.Machine

/-! ### Progress of a running command (R221) -/

@[simp] theorem complete_input (s : State) : (complete s).input = s.input :=
  complete_field State.input (fun _ _ => rfl) (fun _ _ _ => rfl) s

@[simp] theorem engineEdge_input (before after : State) : (engineEdge before after).input = after.input :=
  engineEdge_field State.input complete_input before after

theorem unlessBusy_input {f : State → State} {s : State} (h : (f s).input = s.input) :
    (unlessBusy f s).input = s.input := by
  unfold unlessBusy
  split
  · rfl
  · exact h

@[simp] theorem opEffect_input (op : BitVec 2) (s : State) : (opEffect op s).input = s.input :=
  (opEffect_keeps op s).1

theorem ctrlEffect_input (v : Word) (s : State) : (ctrlEffect v s).input = s.input :=
  unlessBusy_input (by rw [opEffect_input]; split <;> rfl)

theorem inLenEffect_input (v : Word) (s : State) : (inLenEffect v s).input = s.input := unlessBusy_input rfl

theorem inbufEffect_input (off : Nat) (v : Word) (s : State) : (inbufEffect off v s).input = s.input :=
  unlessBusy_input rfl

theorem writeEffect_input (a : Addr) (v : Word) (s : State) : (writeEffect a v s).input = s.input := by
  unfold writeEffect
  split_ifs
  · exact ctrlEffect_input v s
  · exact inLenEffect_input v s
  · rfl
  · rfl
  · exact inbufEffect_input _ v s
  · rfl

/-- No transaction changes the schedule, whatever the parameters are. -/
theorem exec_input {s t : State} {i : Instr} (h : exec i s = .next t) : t.input = s.input := by
  cases i with
  | busRead a => cases h; split <;> rfl
  | busWrite a v =>
    cases h
    split
    · rfl
    · exact writeEffect_input a v s
  | ctrlWrite v => cases h; exact ctrlEffect_input v s
  | inLenWrite v => cases h; exact inLenEffect_input v s
  | irqEnWrite v => cases h; rfl
  | inbufWrite off v =>
    cases h
    split
    · rfl
    · exact inbufEffect_input _ v s
  | cmdNone => cases h; exact unlessBusy_input rfl
  | cmdEncode => cases h; exact unlessBusy_input (opEffect_input 1 s)
  | cmdDecode => cases h; exact unlessBusy_input (opEffect_input 2 s)
  | cmdRsvd => cases h; exact unlessBusy_input rfl
  | clr op => cases h; exact unlessBusy_input (opEffect_input op (clearStatus s))

/-- An edge takes the first entry of the schedule and no more. -/
theorem step_input {s t : State} (h : step s = .next t) : t.input = s.input.tail := by
  rcases step_cases h with ⟨_, rfl⟩ | ⟨_, _, rfl⟩ | ⟨_, _, u, hu, rfl⟩
  · rfl
  · simp
  · rw [engineEdge_input, exec_input hu, takeInput_input]

/-- Every edge has a next state. -/
theorem step_next (s : State) : ∃ t, step s = .next t := by
  cases hr : (nextPins s).rstN with
  | false => exact ⟨_, step_reset hr⟩
  | true =>
    cases hreq : (nextPins s).req with
    | false => exact ⟨_, step_quiet hr hreq⟩
    | true =>
      obtain ⟨u, hu⟩ :=
        exec_next (decodeBus s.cfg (nextPins s).we (nextPins s).addr (nextPins s).wdata) (takeInput s)
      exact ⟨_, step_of_exec hr hreq hu⟩

/-- A running command completes at an edge without reset where the engine moves, and runs on where it does not. -/
theorem step_progress {s t : State} (hb : s.busy = true) (hr : (nextPins s).rstN = true) (h : step s = .next t) :
    ((nextPins s).engine = true → t.busy = false ∧ t.status.done = true) ∧
      ((nextPins s).engine = false → t.busy = true) := by
  obtain ⟨u, rfl, heng, _⟩ := step_while_busy hb h hr
  have hub : u.busy = true := (busy_congr heng).trans hb
  refine ⟨fun hmoves => ?_, fun hstays => ?_⟩
  · obtain ⟨hidle, hdone, _⟩ := complete_frame hub
    rw [if_pos hmoves]
    exact ⟨hidle, hdone⟩
  · simpa [hstays] using hub

theorem core_run_succ {s t : State} (h : step s = .next t) (n : Nat) :
    Sys2Proof.core.run (n + 1) s = Sys2Proof.core.run n t := by
  have hcore : Sys2Proof.core.step s = .next t := h
  simp only [Host.Core.run, hcore]

/-- Settles O38, by induction on the listed edges: each completes the command or leaves it running on a shorter
schedule, and the engine moves at the first edge that is not listed. -/
theorem startedCommandCompletes : Obligations.StartedCommandCompletes := by
  intro s hb hrst
  induction hin : s.input generalizing s with
  | nil =>
    have hpins := nextPins_nil hin
    obtain ⟨t, ht⟩ := step_next s
    obtain ⟨hidle, hdone⟩ := (step_progress hb (by rw [hpins]; rfl) ht).1 (by rw [hpins]; rfl)
    exact ⟨1, t, Nat.le_refl _, core_run_succ ht 0, hidle, hdone⟩
  | cons c rest ih =>
    obtain ⟨hpins, -⟩ := nextPins_cons hin
    have hr : (nextPins s).rstN = true := hpins ▸ hrst c (hin ▸ List.mem_cons_self)
    obtain ⟨t, ht⟩ := step_next s
    obtain ⟨completes, runsOn⟩ := step_progress hb hr ht
    cases hmoves : (nextPins s).engine with
    | true =>
      obtain ⟨hidle, hdone⟩ := completes hmoves
      exact ⟨1, t, Nat.le_add_left 1 _, core_run_succ ht 0, hidle, hdone⟩
    | false =>
      have htin : t.input = rest := by rw [step_input ht, hin, List.tail_cons]
      obtain ⟨n, u, hn, hrun, hu⟩ :=
        ih t (runsOn hmoves) (fun d hd => hrst d (hin ▸ List.mem_cons_of_mem c (htin ▸ hd))) htin
      exact ⟨n + 1, u, Nat.succ_le_succ hn, (core_run_succ ht n).trans hrun, hu⟩

/-! ### The STATUS word (R202) -/

/-- A concatenation as a number: the low part fills the bits below the high part. -/
theorem toNat_append_eq_add {m n : Nat} (x : BitVec m) (y : BitVec n) : (x ++ y).toNat = x.toNat * 2 ^ n + y.toNat := by
  rw [BitVec.toNat_append, shiftLeft_or_eq_add _ _ _ y.isLt]

/-- Settles O12: each field stands above the sum of the widths of the fields after it. -/
theorem statusWordPlacesItsFields : Obligations.StatusWordPlacesItsFields := by
  intro busy st
  simp only [statusWord, toNat_append_eq_add, BitVec.toNat_ofBool, BitVec.toNat_ofNat]
  omega

/-! ### Writes while BUSY (R205) -/

/-- What is dropped while BUSY is answered with `bus_err = 0`, and WERR is all that changes. -/
theorem takenWrite_unlessBusy_of_busy {s : State} (hb : s.busy = true) (f : State → State) :
    TakenWrite (.next (respondWrite (unlessBusy f s))) { s with status := { s.status with werr := true } } := by
  rw [unlessBusy_of_busy hb]
  exact takenWrite_respondWrite (dropWrite s)

/-- What is not dropped while idle is answered with `bus_err = 0` and has its effect. -/
theorem takenWrite_unlessBusy_of_idle {s : State} (hb : s.busy = false) (f : State → State) :
    TakenWrite (.next (respondWrite (unlessBusy f s))) (f s) := by
  rw [unlessBusy_of_idle hb]
  exact takenWrite_respondWrite (f s)

theorem takenWrite_irqEnWrite (s : State) (v : Word) :
    TakenWrite (exec (.irqEnWrite v) s) { s with ie := decide (v.toNat % 2 = 1) } := by
  rw [← ieField_eq]
  exact takenWrite_respondWrite (irqEnEffect v s)

/-- Settles O22: each row but IRQ_EN_WRITE is `unlessBusy` of its effect, and so is BUS_WRITE at those offsets. -/
theorem writeWhileBusyIsDropped : Obligations.WriteWhileBusyIsDropped := by
  intro s a off v op hb dropped
  have row := takenWrite_unlessBusy_of_busy hb
  refine ⟨row _, row _, row _, row _, row _, row _, row _, takenWrite_irqEnWrite s v, fun hv h4 hc => ?_,
    fun hmapped ha => ?_⟩
  · obtain ⟨hmapped, -⟩ := (ValidParams.of hv).mapped_inWindow h4 hc
    simp only [exec, execInbufWrite, hmapped]
    exact row _
  · rw [exec_busWrite_mapped v hmapped, writeEffect_of_busy hb v ha]
    exact takenWrite_respondWrite (dropWrite s)

/-- Settles O19: the field of the word is its value mod 2^24. -/
theorem inLenWriteStoresTheLow24Bits : Obligations.InLenWriteStoresTheLow24Bits := by
  intro s v
  refine ⟨fun hb => ?_, fun hb => takenWrite_unlessBusy_of_busy hb _⟩
  rw [← lenField_eq]
  exact takenWrite_unlessBusy_of_idle hb _

/-- Settles O20: the write does not look at BUSY, and `irq` reads the bit that it stores. -/
theorem irqEnWriteIsAlwaysAccepted : Obligations.IrqEnWriteIsAlwaysAccepted := by
  intro s v
  refine ⟨takenWrite_irqEnWrite s v, fun t h => ?_⟩
  cases h
  rw [← ieField_eq]
  rfl

/-! ### Commands while idle (R208-R214) -/

theorem start_of_fits {s : State} (h : s.inLen.toNat ≤ s.cfg.inCap) (op : CodecOp) : start op s = acceptStart op s :=
  if_neg (Nat.not_lt.mpr h)

theorem start_of_over {s : State} (h : s.cfg.inCap < s.inLen.toNat) (op : CodecOp) : start op s = refuseLenOver s :=
  if_pos h

/-- A CTRL write while idle clears the status if CLR is 1 and then does what `OP` does (R208). -/
theorem exec_ctrlWrite_idle {s : State} (hb : s.busy = false) (v : Word) : exec (.ctrlWrite v) s =
    .next (respondWrite (opEffect (ctrlOp v) (if ctrlClr v then clearStatus s else s))) := by
  rw [exec, execCtrlWrite, ctrlEffect, unlessBusy_of_idle hb]

/-- CLR while idle does what `OP` does to the cleared state (R209). -/
theorem exec_clr_idle {s : State} (hb : s.busy = false) (op : BitVec 2) :
    exec (.clr op) s = .next (respondWrite (opEffect op (clearStatus s))) := by
  rw [exec, execClr, unlessBusy_of_idle hb]

/-- Without CLR a command row while idle does what its `OP` does. -/
theorem exec_commandRow_idle {s : State} (hb : s.busy = false) : ∀ op : BitVec 2,
    exec (commandRow false op) s = .next (respondWrite (opEffect op s))
  | 0#2 => congrArg (Host.Outcome.next ∘ respondWrite) (unlessBusy_of_idle hb id)
  | 1#2 => congrArg (Host.Outcome.next ∘ respondWrite) (unlessBusy_of_idle hb (start .encode))
  | 2#2 => congrArg (Host.Outcome.next ∘ respondWrite) (unlessBusy_of_idle hb (start .decode))
  | 3#2 => congrArg (Host.Outcome.next ∘ respondWrite) (unlessBusy_of_idle hb refuseBadCmd)

/-- Settles O27: `OP = 0` has no effect, and the word's reserved bits are not read. -/
theorem cmdNoneWhileIdleIsANoOp : Obligations.CmdNoneWhileIdleIsANoOp := by
  intro s v hb
  refine ⟨takenWrite_unlessBusy_of_idle hb id, fun hop hclr => ?_⟩
  rw [exec_ctrlWrite_idle hb, ctrlOp_eq_ofNat hop, ctrlClr_eq, hclr]
  exact takenWrite_respondWrite s

/-- Settles O28: the effect is `acceptStart`, which names every field it changes. -/
theorem acceptedStartRunsTheEngine : Obligations.AcceptedStartRunsTheEngine := by
  intro s hb hfits started
  have accepted (op : CodecOp) : TakenWrite (.next (respondWrite (unlessBusy (start op) s))) (started op) := by
    have h := takenWrite_unlessBusy_of_idle hb (start op)
    rwa [start_of_fits hfits op] at h
  exact ⟨accepted .encode, accepted .decode, fun op => ⟨rfl, rfl⟩⟩

/-- Settles O29: the effect is `refuseLenOver`, which keeps ENG. -/
theorem lengthAboveCapacityIsRefused : Obligations.LengthAboveCapacityIsRefused := by
  intro s hb hover refused
  have refuses (op : CodecOp) : TakenWrite (.next (respondWrite (unlessBusy (start op) s))) refused := by
    have h := takenWrite_unlessBusy_of_idle hb (start op)
    rwa [start_of_over hover op] at h
  exact ⟨refuses .encode, refuses .decode, hb⟩

/-- Settles O31: the cleared state is idle too, so each row does to it what CLR does after its clear. -/
theorem clrClearsThenOpActs : Obligations.ClrClearsThenOpActs := by
  intro s hb cleared
  have clears (op : BitVec 2) : exec (.clr op) s = exec (commandRow false op) cleared :=
    (exec_clr_idle hb op).trans (exec_commandRow_idle (s := cleared) hb op).symm
  refine ⟨?_, rfl, clears 0, clears 1, clears 2, clears 3⟩
  rw [exec_clr_idle hb]
  exact takenWrite_respondWrite cleared

/-! ### A command describes nothing earlier (R216) -/

/-- `OUT_LEN` is 0, and ENG and STATUS but for WERR are the same: what two states show of a command at its start. -/
def SameStart (t t' : State) : Prop :=
  t.outLen = 0 ∧ t'.outLen = 0 ∧ t.eng = t'.eng ∧
    t.status.describes t'.status.done t'.status.err t'.status.code t'.status.errByte

theorem sameStart_start {u u' : State} (heng : u.eng = u'.eng) (hlen : u.inLen = u'.inLen) (hcfg : u.cfg = u'.cfg)
    (op : CodecOp) : SameStart (start op u) (start op u') := by
  unfold start
  rw [← hlen, ← hcfg]
  split
  · exact ⟨rfl, rfl, heng, rfl, rfl, rfl, rfl⟩
  · exact ⟨rfl, rfl, congrArg (Engine.run op) hlen, rfl, rfl, rfl, rfl⟩

/-- Every `OP` but 0 leaves what depends on ENG, IN_LEN and the parameters only. -/
theorem sameStart_opEffect {u u' : State} (heng : u.eng = u'.eng) (hlen : u.inLen = u'.inLen) (hcfg : u.cfg = u'.cfg)
    {op : BitVec 2} (hop : op ≠ 0#2) : SameStart (opEffect op u) (opEffect op u') := by
  simp only [opEffect, hop, if_false]
  split_ifs
  · exact sameStart_start heng hlen hcfg .encode
  · exact sameStart_start heng hlen hcfg .decode
  · exact ⟨rfl, rfl, heng, rfl, rfl, rfl, rfl⟩

/-- Settles O32: the clear keeps IN_LEN and ENG, and every `OP` but 0 starts a command or completes at once. -/
theorem commandDescribesNothingEarlier : Obligations.CommandDescribesNothingEarlier := by
  intro s s' v hb hb' hlen hcfg hv
  have hop : ctrlOp v ≠ 0#2 := fun h => hv (by rw [← ctrlOp_toNat, h]; rfl)
  have heng : s.eng = s'.eng := (busy_eq_false.mp hb).trans (busy_eq_false.mp hb').symm
  refine ⟨_, _, exec_ctrlWrite_idle hb v, exec_ctrlWrite_idle hb' v, ?_⟩
  have hsame : SameStart (opEffect (ctrlOp v) (if ctrlClr v then clearStatus s else s))
      (opEffect (ctrlOp v) (if ctrlClr v then clearStatus s' else s')) := by
    cases ctrlClr v with
    | true => exact sameStart_opEffect (u := clearStatus s) (u' := clearStatus s') heng hlen hcfg hop
    | false => exact sameStart_opEffect heng hlen hcfg hop
  obtain ⟨hout, hout', heng', hstatus⟩ := hsame
  exact ⟨hout, hout', heng', hstatus, opEffect_busyOrDone hop _⟩

end Sys2Proof.Machine

/-! PROOFS. No condition stops the block (60_exceptions.md R252). -/

namespace Sys2Proof.Machine

/-- Settles O10: every row answers a next state, and an edge stops only where the transaction it presents does. -/
theorem everyEdgeAnswersNext : Obligations.EveryEdgeAnswersNext := ⟨exec_next, step_next⟩

end Sys2Proof.Machine

/-! PROOFS (70_reset_and_hazards.md). What a reset edge leaves, and how long a result stays readable. -/

namespace Sys2Proof.Machine

/-! ### Reset (R270, R271) -/

/-- Settles O8: a reset edge is `resetEdge` of the state with the edge's inputs taken, which names every field it
changes. -/
theorem resetEdgeTakesResetValues : Obligations.ResetEdgeTakesResetValues := by
  intro s c rest h hr
  obtain ⟨rfl, htake⟩ := nextPins_cons h
  refine ⟨[], s.outDraws + 1, ?_⟩
  rw [step_reset hr, htake]
  rfl

/-! ### Result lifetime (R282) -/

/-- ENG, OUT_LEN and OutStore are the same: all that the masked view reads (10_state.md R24). -/
def SameResult (s t : State) : Prop :=
  t.eng = s.eng ∧ t.outLen = s.outLen ∧ t.outStore = s.outStore ∧ t.outDraws = s.outDraws

/-- While idle a transaction keeps the result, but for a CTRL write with `OP != 0`: no transaction writes OutStore, and
only a CTRL write touches ENG or OUT_LEN. -/
theorem exec_sameResult_of_idle {s t : State} {we : Bool} {a : Addr} {d : Word} (hv : validParams s.cfg = true)
    (hb : s.busy = false) (h : exec (decodeBus s.cfg we a d) s = .next t)
    (hop : we = true → portAddr s.cfg a = 0x004 → d.toNat % 4 = 0) : SameResult s t := by
  obtain ⟨-, -, hstore, hdraws⟩ := (exec_effect hv _ h).keeps
  rcases exec_while_idle hb h with ⟨-, hout, heng⟩ | ⟨hwe, ha, rfl⟩
  · exact ⟨heng, hout, hstore, hdraws⟩
  · rw [ctrlOp_eq_ofNat (hop hwe ha)]
    cases ctrlClr d <;> exact ⟨rfl, rfl, rfl, rfl⟩

/-- An edge that meets an idle block keeps the result, but for a reset or a CTRL write with `OP != 0`. -/
theorem step_sameResult_of_idle {s t : State} (hv : validParams s.cfg = true) (hb : s.busy = false)
    (h : step s = .next t) (hr : ¬atReset s) (hop : ∀ v, presentsWrite s 0x004 v → v.toNat % 4 = 0) :
    SameResult s t := by
  rcases step_cases h with ⟨hrst, _⟩ | ⟨_, _, rfl⟩ | ⟨hrst, hreq, u, hu, rfl⟩
  · exact absurd hrst hr
  · rw [engineEdge_of_idle hb]
    exact ⟨rfl, rfl, rfl, rfl⟩
  · rw [engineEdge_of_idle hb]
    exact exec_sameResult_of_idle (s := takeInput s) hv hb hu
      fun hwe ha => hop _ ⟨hrst, hreq, hwe, ha, rfl⟩

/-- Settles O58: such an edge keeps ENG, OUT_LEN and OutStore, and the view reads nothing else. -/
theorem resultStaysUntilTheNextCommand : Obligations.ResultStaysUntilTheNextCommand := by
  intro s t hv hb h hr hop
  obtain ⟨heng, hout, hstore, hdraws⟩ := step_sameResult_of_idle hv hb h hr hop
  exact ⟨(busy_congr heng).trans hb, hout, outView_congr heng hout hstore hdraws⟩

end Sys2Proof.Machine
